-- ==== Sys2Proof/Word.lean ====
section
/-! DEFINITION. The word types of the frame block: bytes, event words and RESP values. -/

namespace Sys2Proof

/-- A byte: an unsigned 8-bit value (spec R8). -/
abbrev Byte := BitVec 8

/-- An event word: the 32 bits that name one operation (spec R33). -/
abbrev EventWord := BitVec 32

/-- The 16-bit value a `RESP` event carries (spec R36). -/
abbrev RespValue := BitVec 16

end Sys2Proof
end

