-- ==== Sys2Proof/Syntax.lean ====
section
/-! DEFINITION. The syntax: the registers of the register map (R76), the sixteen operations (R35) and the
pseudo-operations of the assembler (R40). -/

namespace Sys2Proof

/-- The registers of the register map (R76), all read-only. -/
inductive Reg where
  | status
  | verify
  | rxState
  | rxLen
  | rxRem
  | stgLen
  | stgTag
  | qCtrl
  | qCount
  | cap
  | qDepth
  | slotLen (s : BitVec 4)
  | slotAge (s : BitVec 4)
  | slotTag (s : BitVec 4)
deriving DecidableEq, Repr

/-- The operations, one constructor per row of the opcode table (R35). -/
inductive Instr where
  /-- `NOP` (R74). -/
  | nop
  /-- `RXB d` (R54 to R57). -/
  | rxb (d : Byte)
  /-- `TICK` (R70). -/
  | tick
  /-- `SCLR` (R47). -/
  | sclr
  /-- `SPUSH d` (R48). -/
  | spush (d : Byte)
  /-- `SWR a, d` (R49). -/
  | swr (a d : Byte)
  /-- `STAG d` (R52). -/
  | stag (d : Byte)
  /-- `SCRC` (R50). -/
  | scrc
  /-- `SCHK` (R51). -/
  | schk
  /-- `SVER` (R53). -/
  | sver
  /-- `ENQ` (R64). -/
  | enq
  /-- `RDREG a`, the address already read as the register it names (R75, R76). -/
  | rdreg (r : Reg)
  /-- `RDSTG a` (R77). -/
  | rdstg (a : Byte)
  /-- `RDRX a` (R78). -/
  | rdrx (a : Byte)
  /-- `RDSLOT a, s` (R79). -/
  | rdslot (a : Byte) (s : BitVec 4)
  /-- `CLRST m` (R80). -/
  | clrst (m : BitVec 6)
deriving DecidableEq, Repr

/-- The pseudo-operations of R40, which have no event word of their own. -/
inductive Pseudo where
  | sload (bs : List Byte)
  | sseal
  | send
  | rxf (bs : List Byte)
  | ticks (k : Nat)
  | clrall
deriving DecidableEq, Repr

/-- The expansion of a pseudo-operation at assembly (R40). -/
def Pseudo.expand : Pseudo → List Instr
  | .sload bs => .sclr :: bs.map .spush
  | .sseal => [.scrc, .schk]
  | .send => [.scrc, .schk, .enq]
  | .rxf bs => bs.map .rxb
  | .ticks k => List.replicate k .tick
  | .clrall => [.clrst 0x3F#6]

end Sys2Proof
end

