-- ==== Sys2Proof/WellFormed.lean ====
section
/-! DEFINITION. Which operations are well formed: those that some legal event word names (R37). -/

namespace Sys2Proof

/-- A read offset must lie in the buffer: `zext_9(a) < FRAME_CAP` (R37 case 8). -/
def offsetInCap (cap : Nat) (a : Byte) : Bool := decide (a.toNat < cap)

/-- The operations with a legal event word under a capacity `cap`. The operand widths and `Reg` already
rule out R37's cases 5, 6 and 7; case 8 is checked here. -/
def Instr.wf (cap : Nat) : Instr → Bool
  | .nop => true
  | .rxb _ => true
  | .tick => true
  | .sclr => true
  | .spush _ => true
  | .swr _ _ => true
  | .stag _ => true
  | .scrc => true
  | .schk => true
  | .sver => true
  | .enq => true
  | .rdreg _ => true
  | .rdstg a => offsetInCap cap a
  | .rdrx a => offsetInCap cap a
  | .rdslot a _ => offsetInCap cap a
  | .clrst _ => true

end Sys2Proof
end

