-- ==== Sys2Proof/Decode.lean ====
section
/-! DEFINITION. The event word's fields (R33, R34), the decoder (R35, R37) and, after it, the encoder. The
event word is a 32-bit value and has no byte order (R25; DEDUCED, log 14). -/

namespace Sys2Proof

/-- `OP = w[31:24]` (R33). -/
def opField (w : EventWord) : Byte := w.extractLsb' 24 8

/-- `R = w[23:16]`, reserved (R33). -/
def reservedField (w : EventWord) : Byte := w.extractLsb' 16 8

/-- `A = w[15:8]` (R33). -/
def aField (w : EventWord) : Byte := w.extractLsb' 8 8

/-- `D = w[7:0]` (R33). -/
def dField (w : EventWord) : Byte := w.extractLsb' 0 8

/-- Why a word is illegal: the eight cases of R37. Which one is named when several hold is not
observable (R37 gives them one effect). DESIGN CHOICE (log 12), safe. -/
inductive Illegal where
  /-- R37 case 1. -/
  | opcodeNotInMap
  /-- R37 case 2. -/
  | reservedNotZero
  /-- R37 case 3. -/
  | aNotZero
  /-- R37 case 4. -/
  | dNotZero
  /-- R37 case 5. -/
  | slotHighBits
  /-- R37 case 6. -/
  | maskHighBits
  /-- R37 case 7. -/
  | registerNotInMap
  /-- R37 case 8. -/
  | offsetBeyondCap
deriving DecidableEq, Repr

/-- The register at an address of the register map (R76); `none` for every other address. -/
def regAt (a : Byte) : Option Reg :=
  match a.toNat with
  | 0x00 => some .status
  | 0x01 => some .verify
  | 0x02 => some .rxState
  | 0x03 => some .rxLen
  | 0x04 => some .rxRem
  | 0x05 => some .stgLen
  | 0x06 => some .stgTag
  | 0x07 => some .qCtrl
  | 0x08 => some .qCount
  | 0x09 => some .cap
  | 0x0A => some .qDepth
  | _ =>
    match (a.extractLsb' 4 4).toNat with
    | 1 => some (.slotLen (a.extractLsb' 0 4))
    | 2 => some (.slotAge (a.extractLsb' 0 4))
    | 3 => some (.slotTag (a.extractLsb' 0 4))
    | _ => none

/-- A field whose column in R35 is 0 must be zero (R37 cases 3 and 4). -/
def requireZero (v : Byte) (why : Illegal) (k : Except Illegal Instr) : Except Illegal Instr :=
  if v = 0 then k else .error why

/-- A read offset must lie below `FRAME_CAP` (R37 case 8). -/
def requireOffset (cap : Nat) (a : Byte) (i : Instr) : Except Illegal Instr :=
  if offsetInCap cap a then .ok i else .error .offsetBeyondCap

/-- The opcode map (R35), with R37's cases 1 and 3 to 8. -/
def decodeFields (cap : Nat) (op a d : Byte) : Except Illegal Instr :=
  match op.toNat with
  | 0x00 => requireZero a .aNotZero (requireZero d .dNotZero (.ok .nop))
  | 0x01 => requireZero a .aNotZero (.ok (.rxb d))
  | 0x02 => requireZero a .aNotZero (requireZero d .dNotZero (.ok .tick))
  | 0x10 => requireZero a .aNotZero (requireZero d .dNotZero (.ok .sclr))
  | 0x11 => requireZero a .aNotZero (.ok (.spush d))
  | 0x12 => .ok (.swr a d)
  | 0x13 => requireZero a .aNotZero (.ok (.stag d))
  | 0x14 => requireZero a .aNotZero (requireZero d .dNotZero (.ok .scrc))
  | 0x15 => requireZero a .aNotZero (requireZero d .dNotZero (.ok .schk))
  | 0x16 => requireZero a .aNotZero (requireZero d .dNotZero (.ok .sver))
  | 0x17 => requireZero a .aNotZero (requireZero d .dNotZero (.ok .enq))
  | 0x20 =>
    requireZero d .dNotZero
      (match regAt a with
       | some r => .ok (.rdreg r)
       | none => .error .registerNotInMap)
  | 0x21 => requireZero d .dNotZero (requireOffset cap a (.rdstg a))
  | 0x22 => requireZero d .dNotZero (requireOffset cap a (.rdrx a))
  | 0x23 =>
    if d.extractLsb' 4 4 = 0 then requireOffset cap a (.rdslot a (d.extractLsb' 0 4))
    else .error .slotHighBits
  | 0x30 =>
    requireZero a .aNotZero
      (if d.extractLsb' 6 2 = 0 then .ok (.clrst (d.extractLsb' 0 6)) else .error .maskHighBits)
  | _ => .error .opcodeNotInMap

/-- The decoder: total, it answers the operation a legal word names or why the word is illegal (R35, R37). -/
def decode (cap : Nat) (w : EventWord) : Except Illegal Instr :=
  if reservedField w = 0 then decodeFields cap (opField w) (aField w) (dField w)
  else .error .reservedNotZero

/-- The event word of a row of the opcode table: its `nbits` bits, all bits above them zero. -/
def tableWord (nbits w : Nat) : EventWord := BitVec.ofNat 32 (w % 2 ^ nbits)

/-- The operation the decoder reads from a table row's word, under the default capacity (log 1), with
which every offset is legal (R7). -/
def decodeTableWord (nbits w : Nat) : Option Instr :=
  (decode Config.default.frameCap (tableWord nbits w)).toOption

/-- The address of a register in the register map (R76). -/
def regAddr : Reg → Byte
  | .status => 0x00
  | .verify => 0x01
  | .rxState => 0x02
  | .rxLen => 0x03
  | .rxRem => 0x04
  | .stgLen => 0x05
  | .stgTag => 0x06
  | .qCtrl => 0x07
  | .qCount => 0x08
  | .cap => 0x09
  | .qDepth => 0x0A
  | .slotLen s => 0x1#4 ++ s
  | .slotAge s => 0x2#4 ++ s
  | .slotTag s => 0x3#4 ++ s

/-- The `OP` byte of an operation (R35). -/
def Instr.opcode : Instr → Byte
  | .nop => 0x00
  | .rxb _ => 0x01
  | .tick => 0x02
  | .sclr => 0x10
  | .spush _ => 0x11
  | .swr _ _ => 0x12
  | .stag _ => 0x13
  | .scrc => 0x14
  | .schk => 0x15
  | .sver => 0x16
  | .enq => 0x17
  | .rdreg _ => 0x20
  | .rdstg _ => 0x21
  | .rdrx _ => 0x22
  | .rdslot _ _ => 0x23
  | .clrst _ => 0x30

/-- The `A` byte of an operation (R35). -/
def Instr.aByte : Instr → Byte
  | .nop => 0
  | .rxb _ => 0
  | .tick => 0
  | .sclr => 0
  | .spush _ => 0
  | .swr a _ => a
  | .stag _ => 0
  | .scrc => 0
  | .schk => 0
  | .sver => 0
  | .enq => 0
  | .rdreg r => regAddr r
  | .rdstg a => a
  | .rdrx a => a
  | .rdslot a _ => a
  | .clrst _ => 0

/-- The `D` byte of an operation (R35, R34). -/
def Instr.dByte : Instr → Byte
  | .nop => 0
  | .rxb d => d
  | .tick => 0
  | .sclr => 0
  | .spush d => d
  | .swr _ d => d
  | .stag d => d
  | .scrc => 0
  | .schk => 0
  | .sver => 0
  | .enq => 0
  | .rdreg _ => 0
  | .rdstg _ => 0
  | .rdrx _ => 0
  | .rdslot _ s => 0#4 ++ s
  | .clrst m => 0#2 ++ m

/-- A word from its fields, the reserved one zero (R33). -/
def wordOf (op a d : Byte) : EventWord := op ++ 0#8 ++ a ++ d

/-- The event word of an operation (R33, R35). -/
def encode (i : Instr) : EventWord := wordOf i.opcode i.aByte i.dByte

/-- The word the rx port offers for a received byte, `0x01 ++ 0x00 ++ 0x00 ++ d` (R38). -/
def rxWord (d : Byte) : EventWord := 0x01#8 ++ 0x00#8 ++ 0x00#8 ++ d

/-- The word the tick port offers for a pulse (R38). -/
def tickWord : EventWord := 0x02000000#32

/-- The mnemonic of an operation in the assembler syntax (R40). -/
def Instr.mnemonic : Instr → String
  | .nop => "NOP"
  | .rxb _ => "RXB"
  | .tick => "TICK"
  | .sclr => "SCLR"
  | .spush _ => "SPUSH"
  | .swr _ _ => "SWR"
  | .stag _ => "STAG"
  | .scrc => "SCRC"
  | .schk => "SCHK"
  | .sver => "SVER"
  | .enq => "ENQ"
  | .rdreg _ => "RDREG"
  | .rdstg _ => "RDSTG"
  | .rdrx _ => "RDRX"
  | .rdslot _ _ => "RDSLOT"
  | .clrst _ => "CLRST"

/-- The used operands of an operation, in the order A then D (R40). -/
def Instr.operands : Instr → List Nat
  | .nop => []
  | .rxb d => [d.toNat]
  | .tick => []
  | .sclr => []
  | .spush d => [d.toNat]
  | .swr a d => [a.toNat, d.toNat]
  | .stag d => [d.toNat]
  | .scrc => []
  | .schk => []
  | .sver => []
  | .enq => []
  | .rdreg r => [(regAddr r).toNat]
  | .rdstg a => [a.toNat]
  | .rdrx a => [a.toNat]
  | .rdslot a s => [a.toNat, s.toNat]
  | .clrst m => [m.toNat]

/-- An operation as the assembler writes it, operands in decimal (R40). -/
def Instr.asm (i : Instr) : String :=
  match i.operands with
  | [] => i.mnemonic
  | v :: vs => vs.foldl (fun t u => t ++ ", " ++ toString u) (i.mnemonic ++ " " ++ toString v)

end Sys2Proof
end

