-- ==== Sys2Proof/Machine/State.lean ====
section
/-! DEFINITION. The state of the block (spec/10_state.md), its output events (R36), the input events the
environment offers (R38, R39, R90), the two faults, the refusals and the reset state (R22). -/

namespace Sys2Proof.Machine

/-- The contents of one frame buffer (R24): the bytes that are not 0x00, as (offset, byte) cells with
offsets strictly rising. An unlisted offset reads 0x00, as reset and clearing leave it (R22).
DEDUCED (log 8), safe. -/
abbrev Memory := List Host.Cell

/-- The receiver phase `rx.state` (R13). -/
inductive RxPhase where
  | idle
  | len
  | payload
  | discard
deriving DecidableEq, Repr

/-- The Frame Receiver's state (R13). -/
structure Receiver where
  /-- `rx.state`. -/
  phase : RxPhase
  /-- `rx.buf`. -/
  buf : Memory
  /-- `rx.len`. -/
  len : BitVec 9
  /-- `rx.rem`. -/
  rem : BitVec 8
deriving DecidableEq, Repr

/-- The staging buffer's state (R15). -/
structure Staging where
  /-- `stg.buf`. -/
  buf : Memory
  /-- `stg.len`. -/
  len : BitVec 9
  /-- `stg.tag`. -/
  tag : Byte
deriving DecidableEq, Repr

/-- One queue slot (R16). The age is typed 0..10, as I7 of 93_implementation_defined.md asks: the spec
defines nothing for 11..15. DEDUCED (log 11), safe. -/
structure Slot where
  /-- `slot[s].buf`. -/
  buf : Memory
  /-- `slot[s].len`. -/
  len : BitVec 9
  /-- `slot[s].tag`. -/
  tag : Byte
  /-- `slot[s].age`. -/
  age : Fin 11
deriving DecidableEq, Repr

/-- The all-zero slot: a slot at reset or after retirement (R22, R66). -/
def Slot.zero : Slot := { buf := [], len := 0, tag := 0, age := 0 }

/-- The Retry Queue's state (R16). -/
structure Queue where
  /-- `slot[0..15]`. -/
  slots : Vector Slot 16
  /-- `q.head`. -/
  head : BitVec 4
  /-- `q.tail`. -/
  tail : BitVec 4
  /-- `q.empty`. -/
  empty : Bool
deriving DecidableEq, Repr

/-- The error codes (R82), in the order of their STATUS bits (R19). -/
inductive ErrCode where
  | crcErr
  | chkErr
  | lenErr
  | qOvf
  | illCmd
  | stgErr
deriving DecidableEq, Repr

/-- The output events (R36). -/
inductive Event where
  /-- `TX(s, n, bytes)`. -/
  | tx (slot : BitVec 4) (n : Nat) (bytes : List Byte)
  /-- `FRAME(n, bytes, report)`. -/
  | frame (n : Nat) (bytes : List Byte) (report : Bool)
  /-- `ACK(s)`. -/
  | ack (slot : BitVec 4)
  /-- `DROP(s)`. -/
  | drop (slot : BitVec 4)
  /-- `GET_REQ`. -/
  | getReq
  /-- `RESP(v)`. -/
  | resp (v : RespValue)
  /-- `ERR(c)`. -/
  | err (c : ErrCode)
deriving DecidableEq, Repr

/-- What the environment does at one instant (R38, R39, R90): the reset input, and at most one event on
each port. DESIGN CHOICE (log 3), safe. -/
structure Instant where
  /-- The reset input is asserted. -/
  reset : Bool
  /-- The byte offered on the rx port. -/
  rx : Option Byte
  /-- The word offered on the host port. -/
  host : Option EventWord
  /-- A pulse is offered on the tick port. -/
  tick : Bool
deriving DecidableEq, Repr

/-- The machine's state: the block's own (R12 to R20), and three fields of the model, which R23 says are
not state of the block. -/
structure State where
  /-- The OPEN parameters, arguments of the model (R6); no step writes them. DESIGN CHOICE (log 1). -/
  cfg : Config
  /-- The Frame Receiver (R13). -/
  rx : Receiver
  /-- The staging buffer (R15). -/
  stg : Staging
  /-- The Retry Queue (R16). -/
  q : Queue
  /-- `STATUS` (R19). -/
  status : BitVec 6
  /-- `VERIFY` (R20). -/
  verify : BitVec 4
  /-- The events the environment will offer, one entry per instant (R28, R39). DESIGN CHOICE (log 3). -/
  inputs : List Instant
  /-- The output events emitted so far, oldest first (R36). DESIGN CHOICE (log 6). -/
  out : List Event
deriving DecidableEq, Repr

/-- Why the machine stops with a fault. The block itself never traps (R81): both faults answer only
states outside the legal values of R13 to R17, for which the spec defines nothing. -/
inductive Fault where
  /-- Raised by RXB, SPUSH, SWR, SCRC, SCHK, SVER and TICK where they would access an offset at or beyond
  `FRAME_CAP`, which no buffer has (R24). Only a stored length beyond its legal values leads here.
  DEDUCED (log 9), safe. -/
  | outsideBuffer
  /-- Raised by RXB where `rx.rem` is 0 in PAYLOAD or DISCARD, against R14, and would be counted below
  zero. DEDUCED (log 10), safe. -/
  | counterBelowZero
deriving DecidableEq, Repr

/-- Why the machine refuses an operation. -/
inductive Refusal where
  /-- Raised by `exec` for an operation without a meaning, by its mnemonic. Safe. No arm answers so. -/
  | notModelled (mnemonic : String)
deriving DecidableEq, Repr

/-- What one operation answers. -/
abbrev Result := Host.Outcome State Fault Refusal

/-- The block's reset values (R22) under given parameters, inputs still to come and events so far. -/
def State.resetWith (c : Config) (ins : List Instant) (evs : List Event) : State where
  cfg := c
  rx := { phase := .idle, buf := [], len := 0, rem := 0 }
  stg := { buf := [], len := 0, tag := 0 }
  q := { slots := Vector.replicate 16 Slot.zero, head := 0, tail := 0, empty := true }
  status := 0
  verify := 0
  inputs := ins
  out := evs

/-- The machine right after reset (R22, R90), under the default parameters (log 1), with no event offered
(log 3) and none emitted (log 6). -/
def State.reset : State := State.resetWith Config.default [] []

end Sys2Proof.Machine
end

