-- ==== Sys2Proof/Machine/Flags.lean ====
section
/-! DEFINITION. The bits of STATUS (R19) and VERIFY (R20). -/

namespace Sys2Proof.Machine

/-- The code of an error: its STATUS bit number (R36, R82). -/
def ErrCode.code : ErrCode → Nat
  | .crcErr => 0
  | .chkErr => 1
  | .lenErr => 2
  | .qOvf => 3
  | .illCmd => 4
  | .stgErr => 5

/-- The STATUS word with one bit set, the error's (R19). -/
def ErrCode.mask (c : ErrCode) : BitVec 6 := 1#6 <<< c.code

/-- STATUS with an error's bit set (R19). -/
def statusSet (st : BitVec 6) (c : ErrCode) : BitVec 6 := st ||| c.mask

/-- `STATUS & ~m` (R80). -/
def statusClear (st m : BitVec 6) : BitVec 6 := st &&& ~~~m

/-- VERIFY as SVER writes it: LEN_OK, CHK_OK, CRC_OK, DONE from bit 3 down to bit 0 (R20, R53). -/
def verifyWord (crcOk chkOk lenOk : Bool) : BitVec 4 :=
  BitVec.ofBool lenOk ++ BitVec.ofBool chkOk ++ BitVec.ofBool crcOk ++ BitVec.ofBool true

end Sys2Proof.Machine
end

