-- ==== Sys2Proof/Machine/Ops.lean ====
section
/-! DEFINITION. The named operations: reading and writing a buffer (R24, R26), emitting an event (R36),
recording an error (R82), an illegal word (R37), clearing the receiver, the queue's helpers (R64 to R67)
and taking the next input event (R38, R39). The block has no exception entry and no return (R81, R86):
`State.raiseError` is what an error condition does. -/

namespace Sys2Proof.Machine

/-- `MemRead(B, i, 1)` (R9). -/
def Memory.read : Memory → Nat → Byte
  | [], _ => 0
  | (b, w) :: m, a => if a = b then w else Memory.read m a

/-- `MemWrite(B, i, 1, v)` (R9), keeping the canonical form: writing 0x00 removes the cell. -/
def Memory.write : Memory → Nat → Byte → Memory
  | [], a, v => if v = 0 then [] else [(a, v)]
  | (b, w) :: m, a, v =>
    if a < b then (if v = 0 then (b, w) :: m else (a, v) :: (b, w) :: m)
    else if a = b then (if v = 0 then m else (a, v) :: m)
    else (b, w) :: Memory.write m a v

/-- The canonical form: offsets strictly rising and no listed byte 0x00. -/
def Memory.wf : Memory → Bool
  | [] => true
  | (a, v) :: m => decide (v ≠ 0) && m.all (fun c => decide (a < c.1)) && Memory.wf m

/-- `buf[lo..hi)` (R9): the bytes at offsets lo, lo+1, ..., hi-1; empty when hi <= lo. -/
def Memory.bytes (m : Memory) (lo hi : Nat) : List Byte := (List.range' lo (hi - lo)).map m.read

/-- `emit E`: the event joins the output list (R9, R36). -/
def State.emit (s : State) (e : Event) : State := { s with out := s.out ++ [e] }

/-- An error condition: its STATUS bit is set and `ERR(c)` is emitted (R82). -/
def State.raiseError (s : State) (c : ErrCode) : State :=
  { s with status := statusSet s.status c, out := s.out ++ [.err c] }

/-- The whole effect of an illegal word: `STATUS[4] <- 1; emit ERR(4)` (R37). -/
def State.illegalWord (s : State) : State := s.raiseError .illCmd

/-- `clear_rx()` (41_receiver.md): every byte zero, length and count zero; the phase stays. -/
def Receiver.clear (r : Receiver) : Receiver := { r with buf := [], len := 0, rem := 0 }

/-- `slot[i]`. -/
def Queue.slot (q : Queue) (i : BitVec 4) : Slot := q.slots[i.toNat]'i.isLt

/-- The queue with slot `i` replaced. -/
def Queue.setSlot (q : Queue) (i : BitVec 4) (e : Slot) : Queue :=
  { q with slots := q.slots.set i.toNat e i.isLt }

/-- The entry `copy_stg_to` writes: the staging frame by value, age 0 (42_queue.md). -/
def Staging.toSlot (g : Staging) : Slot := { buf := g.buf, len := g.len, tag := g.tag, age := 0 }

/-- `count` (R17, R18). -/
def Queue.count (q : Queue) : Nat := if q.empty then 0 else (q.tail - q.head).toNat + 1

/-- The queue is full: not empty, and `(tail + 1) mod 16 = head` (R18). -/
def Queue.full (q : Queue) : Bool := !q.empty && decide (q.tail + 1 = q.head)

/-- `peek_head()`: the head entry, or none when the queue is empty (R65). -/
def Queue.peekHead (q : Queue) : Option Slot := if q.empty then none else some (q.slot q.head)

/-- `retire_head()`: zero the head slot, then collapse to empty if it was the only entry, by the indices
before the head moves, else advance the head (R66, conflict C1). -/
def Queue.retireHead (q : Queue) : Queue :=
  if q.head = q.tail then
    { q.setSlot q.head Slot.zero with empty := true, head := 0, tail := 0 }
  else
    { q.setSlot q.head Slot.zero with head := q.head + 1 }

/-- What is left of an instant at which events remain to be taken, before the later instants (R39). -/
def Instant.before (i : Instant) (rest : List Instant) : List Instant :=
  if i.rx.isNone && i.host.isNone && !i.tick then rest else i :: rest

/-- An instant at which only the host port offers a word (R38). -/
def Instant.hostWord (w : EventWord) : Instant :=
  { reset := false, rx := none, host := some w, tick := false }

/-- An instant at which only the rx port offers a byte (R38). -/
def Instant.rxByte (d : Byte) : Instant :=
  { reset := false, rx := some d, host := none, tick := false }

/-- An instant at which only the tick port offers a pulse (R38). -/
def Instant.tickPulse : Instant :=
  { reset := false, rx := none, host := none, tick := true }

end Sys2Proof.Machine
end

