-- ==== Sys2Proof/Machine/Operands.lean ====
section
/-! DEFINITION. The operand forms that read state: the register map (R76) and the buffer offsets of the
read operations (R34, R77 to R79). -/

namespace Sys2Proof.Machine

/-- The code of a receiver phase (R13). -/
def RxPhase.code : RxPhase → RespValue
  | .idle => 0
  | .len => 1
  | .payload => 2
  | .discard => 3

/-- `QCTRL`: `q.empty ++ 0b0000000 ++ q.tail ++ q.head` (R76). -/
def Queue.ctrlWord (q : Queue) : RespValue := BitVec.ofBool q.empty ++ 0#7 ++ q.tail ++ q.head

/-- `REG(a)`: the value of a register, zero-extended to 16 bits (R76). -/
def State.readReg (s : State) : Reg → RespValue
  | .status => s.status.setWidth 16
  | .verify => s.verify.setWidth 16
  | .rxState => s.rx.phase.code
  | .rxLen => s.rx.len.setWidth 16
  | .rxRem => s.rx.rem.setWidth 16
  | .stgLen => s.stg.len.setWidth 16
  | .stgTag => s.stg.tag.setWidth 16
  | .qCtrl => s.q.ctrlWord
  | .qCount => BitVec.ofNat 16 s.q.count
  | .cap => BitVec.ofNat 16 s.cfg.frameCap
  | .qDepth => BitVec.ofNat 16 Sys2Proof.qDepth
  | .slotLen i => (s.q.slot i).len.setWidth 16
  | .slotAge i => BitVec.ofNat 16 (s.q.slot i).age.val
  | .slotTag i => (s.q.slot i).tag.setWidth 16

/-- Reading byte `a` of a buffer: `RESP` of the byte zero-extended to 16 bits, and an illegal word when
`zext_9(a) >= FRAME_CAP` (R77 to R79). The decoder already rejects such a word (R37 case 8), so the second
arm answers only an ill-formed operation. DEDUCED (log 13), safe. -/
def State.readByte (s : State) (m : Memory) (a : Byte) : State :=
  if offsetInCap s.cfg.frameCap a then s.emit (.resp ((m.read a.toNat).setWidth 16))
  else s.illegalWord

end Sys2Proof.Machine
end

