-- ==== Sys2Proof/Machine/Access.lean ====
section
/-! DEFINITION. The access operations (R74 to R80): NOP, RDREG, RDSTG, RDRX, RDSLOT, CLRST. -/

namespace Sys2Proof.Machine

/-- NOP: nothing (R74). -/
def execNop (s : State) : Result := .next s

/-- RDREG a: `emit RESP(REG(a))` (R75, R76). -/
def execRdreg (r : Reg) (s : State) : Result := .next (s.emit (.resp (s.readReg r)))

/-- RDSTG a (R77). -/
def execRdstg (a : Byte) (s : State) : Result := .next (s.readByte s.stg.buf a)

/-- RDRX a (R78). -/
def execRdrx (a : Byte) (s : State) : Result := .next (s.readByte s.rx.buf a)

/-- RDSLOT a, s: the slot number is absolute (R79). -/
def execRdslot (a : Byte) (i : BitVec 4) (s : State) : Result := .next (s.readByte (s.q.slot i).buf a)

/-- CLRST m: `STATUS <- STATUS & ~m` (R80). -/
def execClrst (m : BitVec 6) (s : State) : Result :=
  .next { s with status := statusClear s.status m }

end Sys2Proof.Machine
end

