-- ==== Sys2Proof/Machine/Poll.lean ====
section
/-! DEFINITION. The Polling Driver: TICK (R70 to R73). -/

namespace Sys2Proof.Machine

/-- The queue with the head entry one tick older (R70). -/
def Queue.ageHead (q : Queue) : Queue :=
  let e := q.slot q.head
  q.setSlot q.head { e with age := e.age + 1 }

/-- TICK: GET_REQ on an empty queue; else by the head's age TX, DROP or a wait (R70). A length above
`FRAME_CAP` is outside its legal values (R16): there are no such bytes to transmit (log 9). -/
def execTick (s : State) : Result :=
  match s.q.peekHead with
  | none => .next (s.emit .getReq)
  | some e =>
    if e.age ∈ txAges then
      if s.cfg.frameCap < e.len.toNat then .fault .outsideBuffer
      else .next { s.emit (.tx s.q.head e.len.toNat (e.buf.bytes 0 e.len.toNat)) with
        q := s.q.ageHead }
    else if e.age = dropAge then .next { s.emit (.drop s.q.head) with q := s.q.retireHead }
    else .next { s with q := s.q.ageHead }

end Sys2Proof.Machine
end

