-- ==== Sys2Proof/Machine/Codec.lean ====
section
/-! DEFINITION. The Frame Codec's pure functions (R42 to R46). -/

namespace Sys2Proof.Machine

/-- `crc8(B, lo, hi)`: from `CRC_INIT`, the step `c <- CRC8_TABLE[c ^ B[i]]` over the range (R42). -/
def crc8 (c : Config) (m : Memory) (lo hi : Nat) : Byte :=
  (m.bytes lo hi).foldl (fun r b => c.crcEntry (r ^^^ b)) c.crcInit

/-- The exact sum of `B[lo..hi)`. -/
def byteSum (m : Memory) (lo hi : Nat) : Nat := ((m.bytes lo hi).map BitVec.toNat).sum

/-- `checksum8(B, lo, hi)`: `(256 - (sum mod 256)) mod 256` (R45, conflict C5). -/
def checksum8 (m : Memory) (lo hi : Nat) : Byte :=
  BitVec.ofNat 8 ((256 - byteSum m lo hi % 256) % 256)

/-- `verify_crc(B, n)`: the CRC of bytes 10..n-2 is 0x00 (R46, conflict C3). -/
def verifyCrc (c : Config) (m : Memory) (n : Nat) : Bool := decide (crc8 c m crcLo (n - 1) = 0)

/-- `verify_checksum(B, n)`: the sum of bytes 1..n-1 is 0 mod 256 (R46). -/
def verifyChecksum (m : Memory) (n : Nat) : Bool := decide (byteSum m chkLo n % 256 = 0)

end Sys2Proof.Machine
end

