-- ==== Sys2Proof/Machine/Queue.lean ====
section
/-! DEFINITION. The Retry Queue: ENQ (R64) and the acknowledgement match (R67). -/

namespace Sys2Proof.Machine

/-- The staging frame is one ENQ takes: not empty, and it begins with the start marker (R64). -/
def Staging.isFrame (g : Staging) : Bool :=
  decide (g.len ≠ 0) && decide (g.buf.read 0 = startMarker)

/-- ENQ (R64). The staging frame is checked before the capacity (R85). -/
def execEnq (s : State) : Result :=
  if ¬ s.stg.isFrame then .next (s.raiseError .stgErr)
  else if s.q.empty then
    .next { s with q := { s.q.setSlot 0 s.stg.toSlot with head := 0, tail := 0, empty := false } }
  else if s.q.tail + 1 = s.q.head then .next (s.raiseError .qOvf)
  else .next { s with q := { s.q.setSlot (s.q.tail + 1) s.stg.toSlot with tail := s.q.tail + 1 } }

/-- The condition of `ack_match(n)`: an entry at the head, an inbound frame that holds offset 32, and
equal bytes there (R67). -/
def State.ackMatches (s : State) (n : Nat) : Bool :=
  match s.q.peekHead with
  | none => false
  | some e => decide (ackOff < n) && decide (e.buf.read ackOff = s.rx.buf.read ackOff)

/-- `ack_match(n)`: on a match, `ACK(h)` and `retire_head()` (R67). -/
def State.ackMatch (s : State) (n : Nat) : State :=
  if s.ackMatches n then { s.emit (.ack s.q.head) with q := s.q.retireHead } else s

end Sys2Proof.Machine
end

