-- ==== Sys2Proof/Machine/Receiver.lean ====
section
/-! DEFINITION. The Frame Receiver: RXB (R54 to R57) and frame completion (R58 to R61). -/

namespace Sys2Proof.Machine

/-- What `validate(n)` records: LEN_ERR for a short frame; else CRC_ERR and then CHK_ERR for the checks
that fail, both being run (R59, R85). -/
def State.recordChecks (s : State) (n : Nat) : State :=
  if n < minRxLen then s.raiseError .lenErr
  else
    let s1 := if verifyCrc s.cfg s.rx.buf n then s else s.raiseError .crcErr
    if verifyChecksum s.rx.buf n then s1 else s1.raiseError .chkErr

/-- What `validate(n)` returns (R59). -/
def State.frameValid (s : State) (n : Nat) : Bool :=
  decide (minRxLen ≤ n) && verifyCrc s.cfg s.rx.buf n && verifyChecksum s.rx.buf n

/-- The frame in the receive buffer is a status report: `rx.buf[10] = REPORT_TAG` (R60). -/
def State.isReport (s : State) : Bool := decide (s.rx.buf.read tagOff = reportTag)

/-- Handing on a valid frame of length `n`: FRAME, and for a report then the acknowledgement match
(R58, R60, R61). -/
def State.handOn (s : State) (n : Nat) : State :=
  let s1 := s.emit (.frame n (s.rx.buf.bytes 0 n) s.isReport)
  if s.isReport then s1.ackMatch n else s1

/-- `complete()`: validate, hand on a valid frame, then clear the buffer and return to IDLE whether or
not the frame is valid (R58, conflict C11). -/
def State.complete (s : State) : State :=
  let n := s.rx.len.toNat
  let s1 := s.recordChecks n
  let s2 := if s.frameValid n then s1.handOn n else s1
  { s2 with rx := { s2.rx.clear with phase := .idle } }

/-- RXB d in state IDLE (R54). -/
def State.rxbIdle (s : State) (d : Byte) : State :=
  if d = startMarker then
    { s with rx := { s.rx.clear with buf := Memory.write [] 0 d, len := 1, phase := .len } }
  else s

/-- RXB d in state LEN: the length byte (R55). -/
def State.rxbLen (s : State) (d : Byte) : State :=
  if d = 0 then
    let s1 := s.raiseError .lenErr
    { s1 with rx := { s1.rx.clear with phase := .idle } }
  else if s.cfg.frameCap < d.toNat + 1 then
    let s1 := s.raiseError .lenErr
    { s1 with rx := { s1.rx.clear with rem := d - 1, phase := .discard } }
  else
    let r := { s.rx with buf := s.rx.buf.write 1 d, len := 2 }
    if d = 1 then { s with rx := r }.complete
    else { s with rx := { r with rem := d - 1, phase := .payload } }

/-- RXB d in state PAYLOAD: one payload byte, whatever its value (R56, R62). -/
def State.rxbPayload (s : State) (d : Byte) : Result :=
  if s.rx.rem = 0 then .fault .counterBelowZero
  else if s.cfg.frameCap ≤ s.rx.len.toNat then .fault .outsideBuffer
  else
    let s1 := { s with rx := { s.rx with
      buf := s.rx.buf.write s.rx.len.toNat d, len := s.rx.len + 1, rem := s.rx.rem - 1 } }
    .next (if s1.rx.rem = 0 then s1.complete else s1)

/-- RXB d in state DISCARD: the byte is skipped, whatever its value (R57, R62). -/
def State.rxbDiscard (s : State) : Result :=
  if s.rx.rem = 0 then .fault .counterBelowZero
  else
    let r := { s.rx with rem := s.rx.rem - 1 }
    .next { s with rx := if r.rem = 0 then { r with phase := .idle } else r }

/-- RXB d: one received byte, by the receiver's phase (R54). -/
def execRxb (d : Byte) (s : State) : Result :=
  match s.rx.phase with
  | .idle => .next (s.rxbIdle d)
  | .len => .next (s.rxbLen d)
  | .payload => s.rxbPayload d
  | .discard => s.rxbDiscard

end Sys2Proof.Machine
end

