-- ==== Sys2Proof/Machine/Staging.lean ====
section
/-! DEFINITION. The staging operations (R47 to R53): SCLR, SPUSH, SWR, STAG, SCRC, SCHK, SVER. -/

namespace Sys2Proof.Machine

/-- Appending one byte to the staging frame: STG_ERR when `stg.len = FRAME_CAP`, else the byte at
`stg.len` and the length one more (R48, R50, R51). A length above `FRAME_CAP` is outside its legal values
(R15) and has no offset to write: a fault (log 9). -/
def State.stgAppend (s : State) (d : Byte) : Result :=
  if s.stg.len.toNat = s.cfg.frameCap then .next (s.raiseError .stgErr)
  else if s.cfg.frameCap < s.stg.len.toNat then .fault .outsideBuffer
  else .next { s with stg := { s.stg with
    buf := s.stg.buf.write s.stg.len.toNat d, len := s.stg.len + 1 } }

/-- SCLR (R47). -/
def execSclr (s : State) : Result :=
  .next { s with stg := { buf := [], len := 0, tag := 0 } }

/-- SPUSH d (R48). -/
def execSpush (d : Byte) (s : State) : Result := s.stgAppend d

/-- SWR a, d (R49). -/
def execSwr (a d : Byte) (s : State) : Result :=
  if s.stg.len.toNat ≤ a.toNat then .next (s.raiseError .stgErr)
  else if s.cfg.frameCap ≤ a.toNat then .fault .outsideBuffer
  else .next { s with stg := { s.stg with buf := s.stg.buf.write a.toNat d } }

/-- STAG d (R52). -/
def execStag (d : Byte) (s : State) : Result :=
  .next { s with stg := { s.stg with tag := d } }

/-- SCRC: append the CRC of bytes 10..len-1 (R50). -/
def execScrc (s : State) : Result :=
  s.stgAppend (crc8 s.cfg s.stg.buf crcLo s.stg.len.toNat)

/-- SCHK: append the checksum of bytes 1..len-1 (R51). -/
def execSchk (s : State) : Result :=
  s.stgAppend (checksum8 s.stg.buf chkLo s.stg.len.toNat)

/-- SVER: verify the staging frame into VERIFY (R53). -/
def execSver (s : State) : Result :=
  let n := s.stg.len.toNat
  if s.cfg.frameCap < n then .fault .outsideBuffer
  else
    let v := verifyWord (verifyCrc s.cfg s.stg.buf n) (verifyChecksum s.stg.buf n) (decide (minRxLen ≤ n))
    .next { s with verify := v }

end Sys2Proof.Machine
end

