-- ==== Sys2Proof/Machine/Dispatch.lean ====
section
/-! DEFINITION. The dispatch of the operations to their meanings, one arm per constructor. -/

namespace Sys2Proof.Machine

def exec (i : Instr) (s : State) : Host.Outcome State Fault Refusal :=
  match i with
  | .nop => Sys2Proof.Machine.execNop s
  | .rxb d => Sys2Proof.Machine.execRxb d s
  | .tick => Sys2Proof.Machine.execTick s
  | .sclr => Sys2Proof.Machine.execSclr s
  | .spush d => Sys2Proof.Machine.execSpush d s
  | .swr a d => Sys2Proof.Machine.execSwr a d s
  | .stag d => Sys2Proof.Machine.execStag d s
  | .scrc => Sys2Proof.Machine.execScrc s
  | .schk => Sys2Proof.Machine.execSchk s
  | .sver => Sys2Proof.Machine.execSver s
  | .enq => Sys2Proof.Machine.execEnq s
  | .rdreg r => Sys2Proof.Machine.execRdreg r s
  | .rdstg a => Sys2Proof.Machine.execRdstg a s
  | .rdrx a => Sys2Proof.Machine.execRdrx a s
  | .rdslot a k => Sys2Proof.Machine.execRdslot a k s
  | .clrst m => Sys2Proof.Machine.execClrst m s

end Sys2Proof.Machine
end

