-- ==== Sys2Proof/Machine/Input.lean ====
section
/-! DEFINITION. Taking the next event from what the environment offers (R38, R39). -/

namespace Sys2Proof.Machine

/-- The event word taken at an instant and what is left of the instant: rx, then host, then tick
(R38, R39); `none` when no port offers an event. -/
def Instant.take (i : Instant) : Option (EventWord × Instant) :=
  match i.rx, i.host, i.tick with
  | some d, _, _ => some (rxWord d, { i with rx := none })
  | none, some w, _ => some (w, { i with host := none })
  | none, none, true => some (tickWord, { i with tick := false })
  | none, none, false => none

end Sys2Proof.Machine
end

