-- ==== Sys2Proof/Machine/Step.lean ====
section
/-! DEFINITION. The step: the processing of one event word (R10, R11, R28), the reset input (R90), and
where the host's test harness offers a word. -/

namespace Sys2Proof.Machine

/-- Processing one event word: an illegal word is detected before anything else (R37, R85); a legal one
has its operation's effect. -/
def State.process (s : State) (w : EventWord) : Result :=
  match decode s.cfg.frameCap w with
  | .ok i => exec i s
  | .error _ => .next s.illegalWord

/-- One step. With nothing offered the block keeps all state (R89; DEDUCED, log 4). While the reset
input is asserted no event is accepted, those of that instant are lost, and every element takes its reset
value (R90; DEDUCED, log 5). Otherwise the next event of the instant is processed (R39). -/
def step (s : State) : Host.Outcome State Fault Refusal :=
  match s.inputs with
  | [] => .next s
  | i :: rest =>
    if i.reset then .next (State.resetWith s.cfg rest s.out)
    else
      match i.take with
      | none => .next { s with inputs := rest }
      | some (w, left) => { s with inputs := left.before rest }.process w

/-- `s` with the word of a table row offered next, on the host port (R38; DESIGN CHOICE, log 7). -/
def State.withFetchWord (s : State) (nbits w : Nat) : State :=
  { s with inputs := Instant.hostWord (tableWord nbits w) :: s.inputs }

end Sys2Proof.Machine
end

