-- ==== Sys2Proof/Safety.lean ====
section
/-! DEFINITION. The terms the statements use: the invariants of R14, R15 and R17, the illegal words of R37,
the queue's entries oldest first, and the fold of operations over a state (R28). -/

namespace Sys2Proof.Machine

/-- Every byte at an offset `>= n` is 0 (R14, R15, R17). -/
def Memory.zeroFrom (m : Memory) (n : Nat) : Prop := ∀ i, n ≤ i → m.read i = 0

/-- The receiver invariants of R14, with `rx.rem`'s legal values 0..254 (R13) and the canonical form of
its buffer (log 8). -/
def Receiver.Inv (cap : Nat) (r : Receiver) : Prop :=
  r.buf.wf = true ∧
  match r.phase with
  | .idle => r.len = 0 ∧ r.rem = 0 ∧ r.buf.zeroFrom 0
  | .len => r.len = 1 ∧ r.rem = 0 ∧ r.buf.read 0 = startMarker ∧ r.buf.zeroFrom 1
  | .payload => 2 ≤ r.len.toNat ∧ 1 ≤ r.rem.toNat ∧ r.len.toNat + r.rem.toNat ≤ cap ∧
      r.buf.read 0 = startMarker ∧ r.buf.zeroFrom r.len.toNat
  | .discard => r.len = 0 ∧ r.buf.zeroFrom 0 ∧ 1 ≤ r.rem.toNat ∧ r.rem.toNat ≤ 254

/-- The staging invariant of R15, with `stg.len`'s legal values and the canonical form. -/
def Staging.Inv (cap : Nat) (g : Staging) : Prop :=
  g.buf.wf = true ∧ g.len.toNat ≤ cap ∧ g.buf.zeroFrom g.len.toNat

/-- What R17 says of every occupied slot, with the canonical form. -/
def Slot.HoldsFrame (cap : Nat) (e : Slot) : Prop :=
  e.buf.wf = true ∧ 1 ≤ e.len.toNat ∧ e.len.toNat ≤ cap ∧ e.buf.read 0 = startMarker ∧
  e.buf.zeroFrom e.len.toNat

/-- The occupied slots are head, head+1, ..., tail, indices mod 16 (R17). -/
def Queue.occupied (q : Queue) (i : BitVec 4) : Prop :=
  q.empty = false ∧ (i - q.head).toNat ≤ (q.tail - q.head).toNat

/-- The queue invariants of R17. -/
def Queue.Inv (cap : Nat) (q : Queue) : Prop :=
  (q.empty = true → q.head = 0 ∧ q.tail = 0) ∧
  ∀ i : BitVec 4,
    (q.occupied i → (q.slot i).HoldsFrame cap ∧ (i ≠ q.head → (q.slot i).age = 0)) ∧
    (¬ q.occupied i → q.slot i = Slot.zero)

/-- The invariant of the block: R14, R15 and R17 together. -/
def State.Inv (s : State) : Prop :=
  s.rx.Inv s.cfg.frameCap ∧ s.stg.Inv s.cfg.frameCap ∧ s.q.Inv s.cfg.frameCap

/-- Each of the 18 buffers of R24 has the canonical form (log 8). -/
def State.canonical (s : State) : Prop :=
  s.rx.buf.wf = true ∧ s.stg.buf.wf = true ∧ ∀ i : BitVec 4, (s.q.slot i).buf.wf = true

/-- The queue's entries, oldest first (R17). -/
def Queue.entries (q : Queue) : List Slot :=
  (List.range q.count).map (fun k => q.slot (q.head + BitVec.ofNat 4 k))

/-- The fold of a sequence of operations over a state, stopping at the first fault or refusal (R28). -/
def runAll : List Instr → State → Result
  | [], s => .next s
  | i :: is, s =>
    match exec i s with
    | .next t => runAll is t
    | .fault f => .fault f
    | .refused r => .refused r

/-- The opcodes of the map (R35). -/
def mapOpcodes : List Byte :=
  [0x00, 0x01, 0x02, 0x10, 0x11, 0x12, 0x13, 0x14, 0x15, 0x16, 0x17, 0x20, 0x21, 0x22, 0x23, 0x30]

/-- The opcodes whose A column is 0 (R35). -/
def zeroAOpcodes : List Byte :=
  [0x00, 0x01, 0x02, 0x10, 0x11, 0x13, 0x14, 0x15, 0x16, 0x17, 0x30]

/-- The opcodes whose D column is 0 (R35). -/
def zeroDOpcodes : List Byte := [0x00, 0x02, 0x10, 0x14, 0x15, 0x16, 0x17, 0x20, 0x21, 0x22]

/-- An address is in the register map: 0x00..0x0A or 0x10..0x3F (R76). -/
def inRegisterMap (a : Byte) : Prop := a.toNat ≤ 0x0A ∨ (0x10 ≤ a.toNat ∧ a.toNat ≤ 0x3F)

/-- A word is illegal when any of R37's eight cases holds. -/
def wordIllegal (cap : Nat) (w : EventWord) : Prop :=
  opField w ∉ mapOpcodes ∨
  reservedField w ≠ 0 ∨
  (aField w ≠ 0 ∧ opField w ∈ zeroAOpcodes) ∨
  (dField w ≠ 0 ∧ opField w ∈ zeroDOpcodes) ∨
  (opField w = 0x23 ∧ (dField w).extractLsb' 4 4 ≠ 0) ∨
  (opField w = 0x30 ∧ (dField w).extractLsb' 6 2 ≠ 0) ∨
  (opField w = 0x20 ∧ ¬ inRegisterMap (aField w)) ∨
  (opField w ∈ [0x21#8, 0x22#8, 0x23#8] ∧ cap ≤ (aField w).toNat)

/-- A state with one error recorded: the STATUS bit set and `ERR(c)` emitted, nothing else changed (R82). -/
def State.withError (s : State) (bit : BitVec 6) (c : ErrCode) : State :=
  { s with status := s.status ||| bit, out := s.out ++ [.err c] }

end Sys2Proof.Machine
end

