-- ==== Sys2Proof/Certificates/Slice0/Obligations.lean ====
section
/-! DEFINITION. The statements for the provers. A bit pattern written out, such as 0x20#6 for STG_ERR, is
the STATUS bit of R19 (bit 0 CRC_ERR, 1 CHK_ERR, 2 LEN_ERR, 3 Q_OVF, 4 ILL_CMD, 5 STG_ERR). A result written
as a record update of `s` is also the operation's frame: every field it does not name is unchanged. -/

open Sys2Proof Sys2Proof.Machine

/-! ## Encodings (30_encoding.md) -/

/-- Decoding the word of a well-formed operation gives the operation back, with every operand at every
value (R33 to R35, R37). -/
def Obligations.DecodeEncodeAgree : Prop :=
  ∀ (cap : Nat) (i : Instr), i.wf cap = true → decode cap (encode i) = .ok i

/-- A word the decoder accepts is the word of the operation it names, which is well formed: every word has
one meaning (R35, R37). -/
def Obligations.DecodedWordReencodes : Prop :=
  ∀ (cap : Nat) (w : EventWord) (i : Instr), decode cap w = .ok i → encode i = w ∧ i.wf cap = true

/-- R37: a word in one of the eight cases sets ILL_CMD, emits ERR(4) and changes nothing else; every
other word runs the operation it names. -/
def Obligations.IllegalWordOnlyRecordsIllCmd : Prop :=
  ∀ (s : State) (w : EventWord),
    (wordIllegal s.cfg.frameCap w → s.process w = .next (s.withError 0x10#6 .illCmd)) ∧
    (¬ wordIllegal s.cfg.frameCap w →
      ∃ i, decode s.cfg.frameCap w = .ok i ∧ s.process w = exec i s)

/-- Words written out from R33 and R35 decode to the operations they stand for. -/
def Obligations.SampleWordsDecode : Prop :=
  decode 256 0x00000000#32 = .ok .nop ∧
  decode 256 0x010000AA#32 = .ok (.rxb 0xAA#8) ∧
  decode 256 0x02000000#32 = .ok .tick ∧
  decode 256 0x12000A55#32 = .ok (.swr 0x0A#8 0x55#8) ∧
  decode 256 0x17000000#32 = .ok .enq ∧
  decode 256 0x20003100#32 = .ok (.rdreg (.slotTag 1#4)) ∧
  decode 256 0x23002002#32 = .ok (.rdslot 0x20#8 2#4) ∧
  decode 256 0x3000003F#32 = .ok (.clrst 0x3F#6)

/-! ## The step, the ports and reset -/

/-- A step whose next event word decodes to `i` is `exec i`, at the state with that event taken from the
offered inputs (R28, R38). -/
def Obligations.StepRunsDecodedWord : Prop :=
  ∀ (s : State) (now left : Instant) (rest : List Instant) (w : EventWord) (i : Instr),
    s.inputs = now :: rest → now.reset = false → now.take = some (w, left) →
    decode s.cfg.frameCap w = .ok i →
    step s = exec i { s with inputs := left.before rest }

/-- R39: events offered at one instant are taken as consecutive steps, rx, then host, then tick; the rx
byte as RXB, the tick pulse as TICK. -/
def Obligations.PortsTakenRxThenHostThenTick : Prop :=
  ∀ (s : State) (rest : List Instant),
    (∀ (d : Byte) (h : Option EventWord) (t : Bool),
      s.inputs = { reset := false, rx := some d, host := h, tick := t } :: rest →
      step s = exec (.rxb d) { s with inputs :=
        if h = none ∧ t = false then rest
        else { reset := false, rx := none, host := h, tick := t } :: rest }) ∧
    (∀ (w : EventWord) (t : Bool),
      s.inputs = { reset := false, rx := none, host := some w, tick := t } :: rest →
      step s = ({ s with inputs :=
        if t = false then rest
        else { reset := false, rx := none, host := none, tick := t } :: rest }).process w) ∧
    (s.inputs = { reset := false, rx := none, host := none, tick := true } :: rest →
      step s = exec .tick { s with inputs := rest })

/-- While no event is offered a step keeps all state but the passed instant: the model's choice (log 4),
from R89's "keeps all state between events". -/
def Obligations.NoEventKeepsState : Prop :=
  ∀ s : State,
    (s.inputs = [] → step s = .next s) ∧
    (∀ rest, s.inputs = { reset := false, rx := none, host := none, tick := false } :: rest →
      step s = .next { s with inputs := rest })

/-- R22: every state element's value after reset. -/
def Obligations.ResetValues : Prop :=
  State.reset.rx.phase = .idle ∧ (∀ a, State.reset.rx.buf.read a = 0) ∧
  State.reset.rx.len = 0 ∧ State.reset.rx.rem = 0 ∧
  (∀ a, State.reset.stg.buf.read a = 0) ∧ State.reset.stg.len = 0 ∧ State.reset.stg.tag = 0 ∧
  (∀ (k : BitVec 4) (a : Nat), (State.reset.q.slot k).buf.read a = 0) ∧
  (∀ k : BitVec 4, (State.reset.q.slot k).len = 0 ∧ (State.reset.q.slot k).tag = 0 ∧
    (State.reset.q.slot k).age = 0) ∧
  State.reset.q.empty = true ∧ State.reset.q.head = 0 ∧ State.reset.q.tail = 0 ∧
  State.reset.status = 0 ∧ State.reset.verify = 0

/-- The reset input takes every element to its reset value from any state, emits nothing and accepts no
event (R90). That the events of that instant are lost is the model's reading (log 5); the parameters stay. -/
def Obligations.ResetInputRestoresResetValues : Prop :=
  ∀ (s : State) (now : Instant) (rest : List Instant), s.inputs = now :: rest → now.reset = true →
    step s = .next { State.reset with cfg := s.cfg, inputs := rest, out := s.out }

/-! ## The invariants and the whole machine -/

/-- Reset establishes the invariants of R14, R15 and R17, under every value of the parameters. -/
def Obligations.ResetMeetsInv : Prop :=
  State.reset.Inv ∧ ∀ (c : Config) (ins : List Instant) (evs : List Event), (State.resetWith c ins evs).Inv

/-- Every step keeps the invariants of R14, R15 and R17. -/
def Obligations.StepKeepsInv : Prop :=
  ∀ s t : State, s.Inv → step s = .next t → t.Inv

/-- From a state that meets the invariants a step always gives a next state: the block never traps and
never halts (R81). -/
def Obligations.StepNeverStops : Prop :=
  ∀ s : State, s.Inv → ∃ t, step s = .next t

/-- Every step keeps every buffer in the model's canonical form (log 8). -/
def Obligations.StepKeepsBuffersCanonical : Prop :=
  ∀ s t : State, s.canonical → step s = .next t → t.canonical

/-- No step writes the parameters, and a step only appends to the model's output list (R6, R23, R36;
log 1, log 6). -/
def Obligations.StepKeepsParametersAndAppendsOutput : Prop :=
  ∀ s t : State, step s = .next t → t.cfg = s.cfg ∧ ∃ evs, t.out = s.out ++ evs

/-- Each unit's state is written by its own operations alone: rx by RXB, the staging frame by the staging
operations, the queue by RXB, TICK and ENQ, VERIFY by SVER; and no operation writes the parameters or
what the environment offers (R20, R23, R24). -/
def Obligations.EachUnitWritesOnlyItsOwnState : Prop :=
  ∀ (i : Instr) (s t : State), exec i s = .next t →
    t.cfg = s.cfg ∧ t.inputs = s.inputs ∧
    ((∀ d, i ≠ .rxb d) → t.rx = s.rx) ∧
    (i ≠ .sclr → i ≠ .scrc → i ≠ .schk → (∀ d, i ≠ .spush d) → (∀ a d, i ≠ .swr a d) →
      (∀ d, i ≠ .stag d) → t.stg = s.stg) ∧
    ((∀ d, i ≠ .rxb d) → i ≠ .tick → i ≠ .enq → t.q = s.q) ∧
    (i ≠ .sver → t.verify = s.verify)

/-- STATUS bits are sticky: no operation but CLRST clears one (R19). -/
def Obligations.StatusBitsAreSticky : Prop :=
  ∀ (i : Instr) (s t : State), exec i s = .next t → (∀ m, i ≠ .clrst m) →
    ∀ k, s.status.getLsbD k = true → t.status.getLsbD k = true

/-- An operation's ERR events and the STATUS bits it sets are the same: ERR(c) leaves bit c set, and a bit
newly set comes with its ERR event (R36, R82). -/
def Obligations.ErrEventsMatchStatusBits : Prop :=
  ∀ (i : Instr) (s t : State), exec i s = .next t →
    ∃ evs, t.out = s.out ++ evs ∧
      ∀ c : ErrCode,
        (Event.err c ∈ evs → t.status.getLsbD c.code = true) ∧
        (t.status.getLsbD c.code = true → s.status.getLsbD c.code = false → Event.err c ∈ evs)

/-- R21: no operation branches on STATUS or VERIFY and no result depends on them; only RDREG, which reads
them out, is left aside. -/
def Obligations.StatusAndVerifySteerNothing : Prop :=
  ∀ (i : Instr) (s : State) (st : BitVec 6) (v : BitVec 4),
    i ≠ .rdreg .status → i ≠ .rdreg .verify →
    match exec i s, exec i { s with status := st, verify := v } with
    | .next t, .next u => ∃ st' v', u = { t with status := st', verify := v' }
    | .fault f, .fault g => f = g
    | .refused _, .refused _ => True
    | _, _ => False

/-- TX, DROP and GET_REQ are emitted by TICK alone, FRAME and ACK by RXB alone, RESP by the read
operations alone; so a single step cannot both acknowledge and drop (R36, R85). -/
def Obligations.EventsComeFromTheirOperations : Prop :=
  ∀ (i : Instr) (s t : State) (evs : List Event), exec i s = .next t → t.out = s.out ++ evs →
    ∀ e ∈ evs,
      match e with
      | .tx _ _ _ => i = .tick
      | .drop _ => i = .tick
      | .getReq => i = .tick
      | .frame _ _ _ => ∃ d, i = .rxb d
      | .ack _ => ∃ d, i = .rxb d
      | .resp _ => (∃ r, i = .rdreg r) ∨ (∃ a, i = .rdstg a) ∨ (∃ a, i = .rdrx a) ∨
          ∃ a k, i = .rdslot a k
      | .err _ => True

/-! ## The codec's functions (40_codec.md) -/

/-- R42: the CRC of an empty range is CRC_INIT, and one more byte is one table step. -/
def Obligations.CrcFollowsTheTable : Prop :=
  ∀ (c : Config) (m : Memory) (lo hi : Nat),
    (hi ≤ lo → crc8 c m lo hi = c.crcInit) ∧
    (lo ≤ hi → crc8 c m lo (hi + 1) = c.crcEntry (crc8 c m lo hi ^^^ m.read hi))

/-- R43: data followed by its own CRC has CRC 0x00, for every table with entry 0 = 0x00 and every
CRC_INIT. -/
def Obligations.CrcOfDataAndItsCrcIsZero : Prop :=
  ∀ (c : Config) (m : Memory) (lo k : Nat), lo ≤ k → m.read k = crc8 c m lo k →
    crc8 c m lo (k + 1) = 0

/-- R45: the checksum is (256 - s) mod 256 for the sum s mod 256 of the range, 0 where the range is empty,
and makes the sum with it congruent to 0 mod 256. -/
def Obligations.ChecksumClosesTheSum : Prop :=
  ∀ (m : Memory) (lo hi : Nat),
    let sum := ((List.range' lo (hi - lo)).map (fun i => (m.read i).toNat)).sum
    (checksum8 m lo hi).toNat = (256 - sum % 256) % 256 ∧
    (hi ≤ lo → checksum8 m lo hi = 0) ∧
    (sum + (checksum8 m lo hi).toNat) % 256 = 0

/-- The default table is the one the loop of R44 gives, entry 0x00 is its only zero entry, and its check
value over "123456789" is 0xA1. That reset takes this table is the model's choice (log 1). -/
def Obligations.DefaultTableIsMaxim : Prop :=
  (∀ b : Byte, Config.default.crcEntry b = maximLoop b) ∧
  (∀ b : Byte, Config.default.crcEntry b = 0 → b = 0) ∧
  crc8 Config.default
    [(0, 0x31), (1, 0x32), (2, 0x33), (3, 0x34), (4, 0x35), (5, 0x36), (6, 0x37), (7, 0x38), (8, 0x39)]
    0 9 = 0xA1

/-! ## The staging operations (40_codec.md) -/

/-- R47: SCLR, the word 10000000, zeroes the staging frame and touches nothing else. -/
def Obligations.SclrClearsStagingFrame : Prop :=
  ∀ s : State, decode s.cfg.frameCap (wordOf 0x10 0 0) = .ok .sclr ∧ ∃ g : Staging, exec .sclr s = .next { s with stg := g } ∧
    (∀ a, g.buf.read a = 0) ∧ g.len = 0 ∧ g.tag = 0

/-- R48: SPUSH writes the byte at stg.len and adds one to the length; on a full frame only STG_ERR. -/
def Obligations.SpushAppendsByte : Prop :=
  ∀ (s : State) (d : Byte), s.stg.buf.wf = true →
    decode s.cfg.frameCap (wordOf 0x11 0 d) = .ok (.spush d) ∧
    (s.stg.len.toNat = s.cfg.frameCap → exec (.spush d) s = .next (s.withError 0x20#6 .stgErr)) ∧
    (s.stg.len.toNat < s.cfg.frameCap → ∃ b n,
      exec (.spush d) s = .next { s with stg := { s.stg with buf := b, len := n } } ∧
      n.toNat = s.stg.len.toNat + 1 ∧ b.read s.stg.len.toNat = d ∧
      ∀ a, a ≠ s.stg.len.toNat → b.read a = s.stg.buf.read a)

/-- R49: SWR overwrites one byte below stg.len and never changes the length; at or beyond it only STG_ERR. -/
def Obligations.SwrOverwritesByte : Prop :=
  ∀ (s : State) (a d : Byte), s.stg.buf.wf = true → s.stg.len.toNat ≤ s.cfg.frameCap →
    decode s.cfg.frameCap (wordOf 0x12 a d) = .ok (.swr a d) ∧
    (s.stg.len.toNat ≤ a.toNat → exec (.swr a d) s = .next (s.withError 0x20#6 .stgErr)) ∧
    (a.toNat < s.stg.len.toNat → ∃ b,
      exec (.swr a d) s = .next { s with stg := { s.stg with buf := b } } ∧
      b.read a.toNat = d ∧ ∀ x, x ≠ a.toNat → b.read x = s.stg.buf.read x)

/-- R50: SCRC appends the CRC of bytes 10..len-1, CRC_INIT where that range is empty, and a second SCRC in
a row appends 0x00; on a full frame only STG_ERR. -/
def Obligations.ScrcAppendsCrc : Prop :=
  ∀ s : State, s.stg.buf.wf = true →
    decode s.cfg.frameCap (wordOf 0x14 0 0) = .ok .scrc ∧
    (s.stg.len.toNat = s.cfg.frameCap → exec .scrc s = .next (s.withError 0x20#6 .stgErr)) ∧
    (s.stg.len.toNat < s.cfg.frameCap → ∃ b n,
      exec .scrc s = .next { s with stg := { s.stg with buf := b, len := n } } ∧
      n.toNat = s.stg.len.toNat + 1 ∧
      b.read s.stg.len.toNat = crc8 s.cfg s.stg.buf 10 s.stg.len.toNat ∧
      (s.stg.len.toNat ≤ 10 → b.read s.stg.len.toNat = s.cfg.crcInit) ∧
      (∀ a, a ≠ s.stg.len.toNat → b.read a = s.stg.buf.read a) ∧
      (10 ≤ s.stg.len.toNat → s.stg.len.toNat + 1 < s.cfg.frameCap → ∃ u,
        exec .scrc { s with stg := { s.stg with buf := b, len := n } } = .next u ∧
        u.stg.buf.read (s.stg.len.toNat + 1) = 0))

/-- R51: SCHK appends the checksum of bytes 1..len-1, 0x00 where that range is empty; on a full frame only
STG_ERR. -/
def Obligations.SchkAppendsChecksum : Prop :=
  ∀ s : State, s.stg.buf.wf = true →
    decode s.cfg.frameCap (wordOf 0x15 0 0) = .ok .schk ∧
    (s.stg.len.toNat = s.cfg.frameCap → exec .schk s = .next (s.withError 0x20#6 .stgErr)) ∧
    (s.stg.len.toNat < s.cfg.frameCap → ∃ b n,
      exec .schk s = .next { s with stg := { s.stg with buf := b, len := n } } ∧
      n.toNat = s.stg.len.toNat + 1 ∧
      b.read s.stg.len.toNat = checksum8 s.stg.buf 1 s.stg.len.toNat ∧
      (s.stg.len.toNat ≤ 1 → b.read s.stg.len.toNat = 0) ∧
      ∀ a, a ≠ s.stg.len.toNat → b.read a = s.stg.buf.read a)

/-- R52: STAG sets the tag and nothing else. -/
def Obligations.StagSetsTag : Prop :=
  ∀ (s : State) (d : Byte), decode s.cfg.frameCap (wordOf 0x13 0 d) = .ok (.stag d) ∧
    exec (.stag d) s = .next { s with stg := { s.stg with tag := d } }

/-- R53: SVER writes DONE, CRC_OK, CHK_OK and LEN_OK of the staging frame into VERIFY and nothing else. -/
def Obligations.SverWritesVerify : Prop :=
  ∀ s : State, s.stg.len.toNat ≤ s.cfg.frameCap →
    decode s.cfg.frameCap (wordOf 0x16 0 0) = .ok .sver ∧ ∃ v : BitVec 4,
    exec .sver s = .next { s with verify := v } ∧
    v.getLsbD 0 = true ∧
    (v.getLsbD 1 = true ↔ crc8 s.cfg s.stg.buf 10 (s.stg.len.toNat - 1) = 0) ∧
    (v.getLsbD 2 = true ↔
      ((List.range' 1 (s.stg.len.toNat - 1)).map (fun i => (s.stg.buf.read i).toNat)).sum % 256 = 0) ∧
    (v.getLsbD 3 = true ↔ 13 ≤ s.stg.len.toNat)

/-- The round trip of the codec: after SCRC and SCHK on a frame of 10 bytes or more, SVER finds the CRC and
the checksum right, for every table and CRC_INIT (R43, R46, R50, R51, R53). -/
def Obligations.SealThenVerifySucceeds : Prop :=
  ∀ s : State, s.stg.buf.wf = true → 10 ≤ s.stg.len.toNat → s.stg.len.toNat + 2 ≤ s.cfg.frameCap →
    ∃ t, runAll [.scrc, .schk, .sver] s = .next t ∧
      t.verify.getLsbD 0 = true ∧ t.verify.getLsbD 1 = true ∧ t.verify.getLsbD 2 = true ∧
      (t.verify.getLsbD 3 = true ↔ 11 ≤ s.stg.len.toNat) ∧
      t.stg.len.toNat = s.stg.len.toNat + 2 ∧
      (∀ a, a < s.stg.len.toNat → t.stg.buf.read a = s.stg.buf.read a) ∧
      t = { s with stg := t.stg, verify := t.verify }

/-! ## The receiver (41_receiver.md) -/

/-- R54: in IDLE the start marker begins a frame at offset 0, and every other byte is dropped with no
change and no event. -/
def Obligations.RxbInIdle : Prop :=
  ∀ (s : State) (d : Byte), s.rx.phase = .idle →
    decode s.cfg.frameCap (wordOf 0x01 0 d) = .ok (.rxb d) ∧
    (d = 0xAA#8 → ∃ b, exec (.rxb d) s =
        .next { s with rx := { phase := .len, buf := b, len := 1, rem := 0 } } ∧
      b.read 0 = 0xAA#8 ∧ ∀ a, a ≠ 0 → b.read a = 0) ∧
    (d ≠ 0xAA#8 → exec (.rxb d) s = .next s)

/-- R55: in LEN the byte is the length byte: 0 is a length error, one that does not fit leads to DISCARD
with L - 1 bytes to skip, 1 completes at once as a short frame, any other leads to PAYLOAD with L - 1 bytes
to collect. -/
def Obligations.RxbInLen : Prop :=
  ∀ (s : State) (d : Byte), s.rx.phase = .len → s.rx.buf.wf = true →
    (d = 0 → exec (.rxb d) s = .next { s.withError 0x04#6 .lenErr with
      rx := { phase := .idle, buf := [], len := 0, rem := 0 } }) ∧
    (d ≠ 0 → s.cfg.frameCap < d.toNat + 1 → exec (.rxb d) s = .next { s.withError 0x04#6 .lenErr with
      rx := { phase := .discard, buf := [], len := 0, rem := d - 1 } }) ∧
    (d = 1 → exec (.rxb d) s = .next { s.withError 0x04#6 .lenErr with
      rx := { phase := .idle, buf := [], len := 0, rem := 0 } }) ∧
    (2 ≤ d.toNat → d.toNat + 1 ≤ s.cfg.frameCap → ∃ b, exec (.rxb d) s =
        .next { s with rx := { phase := .payload, buf := b, len := 2, rem := d - 1 } } ∧
      b.read 1 = d ∧ ∀ a, a ≠ 1 → b.read a = s.rx.buf.read a)

/-- R56: in PAYLOAD the byte is stored at rx.len whatever its value, the length grows by one and the count
falls by one; the last byte completes the frame in the same step. -/
def Obligations.RxbInPayload : Prop :=
  ∀ (s : State) (d : Byte), s.rx.phase = .payload → s.rx.buf.wf = true →
    s.rx.len.toNat < s.cfg.frameCap → s.rx.rem ≠ 0 →
    ∃ b n r, b.read s.rx.len.toNat = d ∧ (∀ a, a ≠ s.rx.len.toNat → b.read a = s.rx.buf.read a) ∧
      n.toNat = s.rx.len.toNat + 1 ∧ r.toNat = s.rx.rem.toNat - 1 ∧
      exec (.rxb d) s = .next (
        if s.rx.rem = 1 then
          ({ s with rx := { phase := .payload, buf := b, len := n, rem := r } } : State).complete
        else { s with rx := { phase := .payload, buf := b, len := n, rem := r } })

/-- In DISCARD the byte is skipped, whatever its value; the last one returns to IDLE (R57). -/
def Obligations.RxbInDiscard : Prop :=
  ∀ (s : State) (d : Byte), s.rx.phase = .discard → s.rx.rem ≠ 0 →
    ∃ r, r.toNat = s.rx.rem.toNat - 1 ∧
      exec (.rxb d) s = .next { s with rx := { s.rx with
        rem := r, phase := if s.rx.rem = 1 then .idle else .discard } }

/-- R59: a completed frame below 13 bytes records LEN_ERR alone; a longer one that fails records CRC_ERR
for a bad CRC and then CHK_ERR for a bad checksum, and is discarded: neither the queue nor anything else
changes. One that passes both checks records nothing and is delivered. -/
def Obligations.CompletedFrameIsValidated : Prop :=
  ∀ s : State,
    let n := s.rx.len.toNat
    let crcBad := crc8 s.cfg s.rx.buf 10 (n - 1) ≠ 0
    let chkBad := byteSum s.rx.buf 1 n % 256 ≠ 0
    (n < 13 → s.complete = { s.withError 0x04#6 .lenErr with
      rx := { phase := .idle, buf := [], len := 0, rem := 0 } }) ∧
    (13 ≤ n → crcBad → ¬ chkBad → s.complete = { s.withError 0x01#6 .crcErr with
      rx := { phase := .idle, buf := [], len := 0, rem := 0 } }) ∧
    (13 ≤ n → ¬ crcBad → chkBad → s.complete = { s.withError 0x02#6 .chkErr with
      rx := { phase := .idle, buf := [], len := 0, rem := 0 } }) ∧
    (13 ≤ n → crcBad → chkBad → s.complete = {
      (s.withError 0x01#6 .crcErr).withError 0x02#6 .chkErr with
      rx := { phase := .idle, buf := [], len := 0, rem := 0 } }) ∧
    (13 ≤ n → ¬ crcBad → ¬ chkBad → ∃ q evs,
      s.complete = { s with
        rx := { phase := .idle, buf := [], len := 0, rem := 0 }, q := q, out := s.out ++ evs } ∧
      (∀ c, Event.err c ∉ evs) ∧ ∃ b, Event.frame n (s.rx.buf.bytes 0 n) b ∈ evs)

/-- R60, R61: a valid frame is handed on by one FRAME event; only a report is then offered to the
acknowledgement match, which retires the head of the queue if it holds an entry, the frame holds offset 32
and the bytes there are equal. The receiver is cleared and IDLE. -/
def Obligations.ValidFrameIsHandedOn : Prop :=
  ∀ s : State,
    let n := s.rx.len.toNat
    let cleared : Receiver := { phase := .idle, buf := [], len := 0, rem := 0 }
    let acks := s.q.empty = false ∧ 33 ≤ n ∧ (s.q.slot s.q.head).buf.read 32 = s.rx.buf.read 32
    13 ≤ n → crc8 s.cfg s.rx.buf 10 (n - 1) = 0 → byteSum s.rx.buf 1 n % 256 = 0 →
    (s.rx.buf.read 10 ≠ 0xC0#8 → s.complete = { s with
      rx := cleared, out := s.out ++ [.frame n (s.rx.buf.bytes 0 n) false] }) ∧
    (s.rx.buf.read 10 = 0xC0#8 → ¬ acks → s.complete = { s with
      rx := cleared, out := s.out ++ [.frame n (s.rx.buf.bytes 0 n) true] }) ∧
    (s.rx.buf.read 10 = 0xC0#8 → acks → s.complete = { s with
      rx := cleared, q := s.q.retireHead,
      out := s.out ++ [.frame n (s.rx.buf.bytes 0 n) true, .ack s.q.head] })

/-- R57: a length byte that does not fit records LEN_ERR once, and then exactly L - 1 bytes are skipped,
whatever their values. -/
def Obligations.OverlongFrameIsSkippedExactly : Prop :=
  ∀ (s : State) (d : Byte) (bs : List Byte), s.rx.phase = .len → s.cfg.frameCap < d.toNat + 1 →
    bs.length ≤ d.toNat - 1 →
    runAll (.rxb d :: bs.map .rxb) s = .next { s.withError 0x04#6 .lenErr with
      rx := { phase := if bs.length = d.toNat - 1 then .idle else .discard, buf := [], len := 0,
              rem := BitVec.ofNat 8 (d.toNat - 1 - bs.length) } }

/-- Reassembly: from IDLE, the marker, a length byte that fits and L - 1 bytes of any values, start markers
among them, complete a frame whose buffer holds exactly those bytes (R54 to R56, R58, R62, R63). -/
def Obligations.FrameIsReassembledByteByByte : Prop :=
  ∀ (s : State) (d : Byte) (bs : List Byte), s.rx.phase = .idle → 2 ≤ d.toNat →
    d.toNat + 1 ≤ s.cfg.frameCap → bs.length = d.toNat - 1 →
    ∃ b : Memory, b.wf = true ∧ (∀ a, b.read a = (0xAA#8 :: d :: bs).getD a 0) ∧
      runAll (.rxb 0xAA#8 :: .rxb d :: bs.map .rxb) s = .next
        ({ s with rx := { phase := .payload, buf := b, len := BitVec.ofNat 9 (d.toNat + 1), rem := 0 } }
          : State).complete

/-- From the wire to the output: a frame of 13 bytes or more whose CRC over bytes 10..n-2 and whose sum over
bytes 1..n-1 are zero is delivered as one FRAME event that carries exactly its bytes, and, a report whose
byte 32 equals the head entry's, is followed by ACK and retires the head (R54 to R61, R67). -/
def Obligations.ValidFrameTravelsFromWireToOutput : Prop :=
  ∀ (s : State) (d : Byte) (bs : List Byte),
    let f := 0xAA#8 :: d :: bs
    let acks := s.q.empty = false ∧ 33 ≤ d.toNat + 1 ∧ (s.q.slot s.q.head).buf.read 32 = f.getD 32 0
    s.rx.phase = .idle → 12 ≤ d.toNat → d.toNat + 1 ≤ s.cfg.frameCap → bs.length = d.toNat - 1 →
    ((f.drop 10).dropLast).foldl (fun r x => s.cfg.crcEntry (r ^^^ x)) s.cfg.crcInit = 0 →
    ((f.drop 1).map BitVec.toNat).sum % 256 = 0 →
    ∃ t, runAll (f.map .rxb) s = .next t ∧
      t.rx = { phase := .idle, buf := [], len := 0, rem := 0 } ∧
      (f.getD 10 0 ≠ 0xC0#8 → t = { s with rx := t.rx, out := s.out ++ [.frame (d.toNat + 1) f false] }) ∧
      (f.getD 10 0 = 0xC0#8 → ¬ acks →
        t = { s with rx := t.rx, out := s.out ++ [.frame (d.toNat + 1) f true] }) ∧
      (f.getD 10 0 = 0xC0#8 → acks → t = { s with
        rx := t.rx, q := s.q.retireHead,
        out := s.out ++ [.frame (d.toNat + 1) f true, .ack s.q.head] })

/-! ## The retry queue (42_queue.md) -/

/-- R64: ENQ refuses a staging frame that is no frame (STG_ERR) before it looks at the capacity (Q_OVF);
into an empty queue it writes slot 0, else slot (tail + 1) mod 16: a copy of the staging frame with age 0. No
other slot, and nothing else, changes. -/
def Obligations.EnqAppendsCopyOfStagingFrame : Prop :=
  ∀ s : State,
    let isFrame := s.stg.len ≠ 0 ∧ s.stg.buf.read 0 = 0xAA#8
    let copy : Slot := { buf := s.stg.buf, len := s.stg.len, tag := s.stg.tag, age := 0 }
    decode s.cfg.frameCap (wordOf 0x17 0 0) = .ok .enq ∧
    (¬ isFrame → exec .enq s = .next (s.withError 0x20#6 .stgErr)) ∧
    (isFrame → s.q.empty = true → ∃ q, exec .enq s = .next { s with q := q } ∧
      q.head = 0 ∧ q.tail = 0 ∧ q.empty = false ∧ q.slot 0 = copy ∧
      ∀ k, k ≠ 0 → q.slot k = s.q.slot k) ∧
    (isFrame → s.q.empty = false → s.q.tail + 1 = s.q.head →
      exec .enq s = .next (s.withError 0x08#6 .qOvf)) ∧
    (isFrame → s.q.empty = false → s.q.tail + 1 ≠ s.q.head →
      ∃ q, exec .enq s = .next { s with q := q } ∧
      q.head = s.q.head ∧ q.tail = s.q.tail + 1 ∧ q.empty = false ∧ q.slot (s.q.tail + 1) = copy ∧
      ∀ k, k ≠ s.q.tail + 1 → q.slot k = s.q.slot k)

/-- R66: retiring zeroes the head slot and no other; if it was the only entry the queue collapses to empty
with head = tail = 0, else the head advances mod 16. -/
def Obligations.RetireHeadRemovesTheHead : Prop :=
  ∀ q : Queue, q.empty = false →
    (∀ k, k ≠ q.head → q.retireHead.slot k = q.slot k) ∧
    (∀ a, (q.retireHead.slot q.head).buf.read a = 0) ∧ (q.retireHead.slot q.head).len = 0 ∧
    (q.retireHead.slot q.head).tag = 0 ∧ (q.retireHead.slot q.head).age = 0 ∧
    (q.head = q.tail → q.retireHead.empty = true ∧ q.retireHead.head = 0 ∧ q.retireHead.tail = 0) ∧
    (q.head ≠ q.tail → q.retireHead.empty = false ∧ q.retireHead.head = q.head + 1 ∧
      q.retireHead.tail = q.tail)

/-- R67: the match compares offset 32 of the head entry alone with that of an inbound frame of 33 bytes or
more; on a match ACK(h) and the head retired, else nothing at all. -/
def Obligations.AckMatchRetiresHeadOnEqualToken : Prop :=
  ∀ (s : State) (n : Nat),
    let hit := s.q.empty = false ∧ 32 < n ∧ (s.q.slot s.q.head).buf.read 32 = s.rx.buf.read 32
    (hit → s.ackMatch n = { s with out := s.out ++ [.ack s.q.head], q := s.q.retireHead }) ∧
    (¬ hit → s.ackMatch n = s)

/-- R18: the count is 0 when empty, else ((tail - head) mod 16) + 1; the queue is full exactly when it is not
empty and (tail + 1) mod 16 = head, which is when the count is 16; RDREG 0x08 returns the count. -/
def Obligations.QueueIsFullExactlyAtSixteen : Prop :=
  ∀ s : State,
    (s.q.empty = true → s.q.count = 0) ∧
    (s.q.empty = false → s.q.count = (s.q.tail.toNat + 16 - s.q.head.toNat) % 16 + 1) ∧
    ((s.q.empty = false ∧ s.q.tail + 1 = s.q.head) ↔ s.q.count = 16) ∧
    regAt 0x08 = some .qCount ∧
    exec (.rdreg .qCount) s = .next { s with out := s.out ++ [.resp (BitVec.ofNat 16 s.q.count)] }

/-- ENQ of a frame into a queue that is not full appends the copy, age 0, behind all entries, and retiring
removes the first entry and keeps the rest in order (R64, R66, R68). -/
def Obligations.EnqAppendsAndRetireDropsFirst : Prop :=
  (∀ s t : State, s.stg.len ≠ 0 → s.stg.buf.read 0 = 0xAA#8 → s.q.count < 16 → exec .enq s = .next t →
    t.q.entries = s.q.entries ++ [{ buf := s.stg.buf, len := s.stg.len, tag := s.stg.tag, age := 0 }]) ∧
  (∀ q : Queue, q.empty = false → q.retireHead.entries = q.entries.tail)

/-- The queue is a FIFO: a step leaves its entries as they are, appends one, ages the first, removes the
first, or (the reset input) empties it; it never holds more than 16 (R68). -/
def Obligations.QueueIsFifo : Prop :=
  ∀ s t : State, step s = .next t →
    s.q.entries.length ≤ 16 ∧
    (t.q.entries = s.q.entries ∨
     t.q.entries = s.q.entries ++ [s.stg.toSlot] ∨
     (∃ e es, s.q.entries = e :: es ∧ t.q.entries = { e with age := e.age + 1 } :: es) ∨
     (∃ e es, s.q.entries = e :: es ∧ t.q.entries = es) ∨
     (t.q.entries = [] ∧ ∃ now rest, s.inputs = now :: rest ∧ now.reset = true))

/-! ## The polling driver (43_poll.md) -/

/-- R72's step: TICK on an empty queue emits GET_REQ and changes no state. -/
def Obligations.TickOnEmptyQueueRequestsGet : Prop :=
  ∀ s : State, s.q.empty = true → exec .tick s = .next { s with out := s.out ++ [.getReq] }

/-- R70: TICK transmits the head at ages 0, 4 and 7 and makes it one older, drops it at age 10, and else
only makes it one older; only the head's age changes; an empty queue asks for a GET. -/
def Obligations.TickActsByHeadAge : Prop :=
  ∀ s : State,
    let e := s.q.slot s.q.head
    let n := e.len.toNat
    let older (q : Queue) := q.head = s.q.head ∧ q.tail = s.q.tail ∧ q.empty = s.q.empty ∧
      (q.slot s.q.head).buf = e.buf ∧ (q.slot s.q.head).len = e.len ∧ (q.slot s.q.head).tag = e.tag ∧
      (q.slot s.q.head).age.val = e.age.val + 1 ∧ ∀ k, k ≠ s.q.head → q.slot k = s.q.slot k
    decode s.cfg.frameCap (wordOf 0x02 0 0) = .ok .tick ∧
    (s.q.empty = true → exec .tick s = .next { s with out := s.out ++ [.getReq] }) ∧
    (s.q.empty = false → n ≤ s.cfg.frameCap → (e.age = 0 ∨ e.age = 4 ∨ e.age = 7) →
      ∃ q, exec .tick s = .next { s with q := q, out := s.out ++ [.tx s.q.head n (e.buf.bytes 0 n)] } ∧
        older q) ∧
    (s.q.empty = false → e.age = 10 →
      exec .tick s = .next { s with q := s.q.retireHead, out := s.out ++ [.drop s.q.head] }) ∧
    (s.q.empty = false → e.age ≠ 0 → e.age ≠ 4 → e.age ≠ 7 → e.age ≠ 10 →
      ∃ q, exec .tick s = .next { s with q := q } ∧ older q)

/-- R71: an entry that reaches the head with age 0 and is not acknowledged is transmitted by the ticks 0, 4
and 7 from there, has age k after k ticks, only its age changed, and is dropped by the eleventh: three
transmissions in all. -/
def Obligations.RetryScheduleOfTheHead : Prop :=
  ∀ s : State,
    let e := s.q.slot s.q.head
    let tx := Event.tx s.q.head e.len.toNat (e.buf.bytes 0 e.len.toNat)
    let sent (k : Nat) := if k = 0 then [] else if k ≤ 4 then [tx] else if k ≤ 7 then [tx, tx] else [tx, tx, tx]
    s.q.empty = false → e.age = 0 → e.len.toNat ≤ s.cfg.frameCap →
    (∀ k, k ≤ 10 → ∃ q,
      runAll (List.replicate k .tick) s = .next { s with q := q, out := s.out ++ sent k } ∧
      q.head = s.q.head ∧ q.tail = s.q.tail ∧ q.empty = s.q.empty ∧ (q.slot s.q.head).buf = e.buf ∧
      (q.slot s.q.head).len = e.len ∧ (q.slot s.q.head).tag = e.tag ∧ (q.slot s.q.head).age.val = k ∧
      ∀ j, j ≠ s.q.head → q.slot j = s.q.slot j) ∧
    runAll (List.replicate 11 .tick) s = .next { s with
      q := s.q.retireHead, out := s.out ++ [tx, tx, tx, .drop s.q.head] }

/-! ## The access operations (44_access.md) -/

/-- R74: NOP, the word 00000000, changes nothing and emits nothing; with any bit of R, A or D set its word is
illegal. -/
def Obligations.NopChangesNothing : Prop :=
  ∀ s : State, decode s.cfg.frameCap 0x00000000#32 = .ok .nop ∧ exec .nop s = .next s ∧
    ∀ w : EventWord, opField w = 0 → w ≠ 0x00000000#32 → s.process w = .next (s.withError 0x10#6 .illCmd)

/-- R76, R75: every address of the register map, its value in the RESP event and no change of state; with
every other address RDREG's word is illegal and gives no RESP. -/
def Obligations.RdregReadsTheRegisterMap : Prop :=
  ∀ s : State,
    (∀ p ∈ ([(0x00, s.status.toNat), (0x01, s.verify.toNat),
        (0x02, match s.rx.phase with | .idle => 0 | .len => 1 | .payload => 2 | .discard => 3),
        (0x03, s.rx.len.toNat), (0x04, s.rx.rem.toNat), (0x05, s.stg.len.toNat), (0x06, s.stg.tag.toNat),
        (0x07, (if s.q.empty then 0x8000 else 0) + s.q.tail.toNat * 16 + s.q.head.toNat),
        (0x08, s.q.count), (0x09, s.cfg.frameCap), (0x0A, 16)] : List (Byte × Nat)),
      ∃ r v, decode s.cfg.frameCap (wordOf 0x20 p.1 0) = .ok (.rdreg r) ∧
        v.toNat = p.2 ∧
        exec (.rdreg r) s = .next { s with out := s.out ++ [.resp v] }) ∧
    (∀ k : BitVec 4,
      ∀ p ∈ ([(0x10 + k.toNat, (s.q.slot k).len.toNat), (0x20 + k.toNat, (s.q.slot k).age.val),
        (0x30 + k.toNat, (s.q.slot k).tag.toNat)] : List (Nat × Nat)),
      ∃ r v, decode s.cfg.frameCap (wordOf 0x20 (BitVec.ofNat 8 p.1) 0) = .ok (.rdreg r) ∧
        v.toNat = p.2 ∧
        exec (.rdreg r) s = .next { s with out := s.out ++ [.resp v] }) ∧
    (∀ a : Byte, (0x0B ≤ a.toNat ∧ a.toNat ≤ 0x0F) ∨ 0x40 ≤ a.toNat →
      s.process (wordOf 0x20 a 0) = .next (s.withError 0x10#6 .illCmd))

/-- R77: RDSTG answers the staging byte zero-extended to 16 bits and changes no state; under the staging
invariant (R15) it answers 0 from stg.len on; its word is illegal when the offset is not below FRAME_CAP. -/
def Obligations.RdstgReadsStagingByte : Prop :=
  ∀ (s : State) (a : Byte),
    (a.toNat < s.cfg.frameCap → decode s.cfg.frameCap (wordOf 0x21 a 0) = .ok (.rdstg a) ∧
      ∃ v, v.toNat = (s.stg.buf.read a.toNat).toNat ∧
        exec (.rdstg a) s = .next { s with out := s.out ++ [.resp v] }) ∧
    (s.stg.Inv s.cfg.frameCap → s.stg.len.toNat ≤ a.toNat → a.toNat < s.cfg.frameCap →
      exec (.rdstg a) s = .next { s with out := s.out ++ [.resp 0] }) ∧
    (s.cfg.frameCap ≤ a.toNat →
      s.process (wordOf 0x21 a 0) = .next (s.withError 0x10#6 .illCmd))

/-- R78: RDRX, in the same way, reads the receive buffer. -/
def Obligations.RdrxReadsReceiveByte : Prop :=
  ∀ (s : State) (a : Byte),
    (a.toNat < s.cfg.frameCap → decode s.cfg.frameCap (wordOf 0x22 a 0) = .ok (.rdrx a) ∧
      ∃ v, v.toNat = (s.rx.buf.read a.toNat).toNat ∧
        exec (.rdrx a) s = .next { s with out := s.out ++ [.resp v] }) ∧
    (s.cfg.frameCap ≤ a.toNat →
      s.process (wordOf 0x22 a 0) = .next (s.withError 0x10#6 .illCmd))

/-- R79: RDSLOT reads a byte of a queue slot by its absolute number; under the queue's invariants (R17) an
unoccupied slot reads 0; its word is illegal when D[7:4] is not zero or the offset is not below FRAME_CAP. -/
def Obligations.RdslotReadsSlotByte : Prop :=
  ∀ (s : State) (a : Byte),
    (∀ k : BitVec 4, a.toNat < s.cfg.frameCap →
      decode s.cfg.frameCap (wordOf 0x23 a (0#4 ++ k)) = .ok (.rdslot a k) ∧
      ∃ v, v.toNat = ((s.q.slot k).buf.read a.toNat).toNat ∧
        exec (.rdslot a k) s = .next { s with out := s.out ++ [.resp v] }) ∧
    (∀ k : BitVec 4, s.q.Inv s.cfg.frameCap → ¬ s.q.occupied k → a.toNat < s.cfg.frameCap →
      exec (.rdslot a k) s = .next { s with out := s.out ++ [.resp 0] }) ∧
    (∀ d : Byte, 16 ≤ d.toNat ∨ s.cfg.frameCap ≤ a.toNat →
      s.process (wordOf 0x23 a d) = .next (s.withError 0x10#6 .illCmd))

/-- R80: CLRST clears the STATUS bits of its mask and no other, and nothing else; a word with D[7:6] not
zero is illegal and clears nothing. -/
def Obligations.ClrstClearsMaskedBits : Prop :=
  ∀ s : State,
    (∀ m : BitVec 6, decode s.cfg.frameCap (wordOf 0x30 0 (0#2 ++ m)) = .ok (.clrst m) ∧ ∃ st, exec (.clrst m) s = .next { s with status := st } ∧
      ∀ k, st.getLsbD k = (s.status.getLsbD k && !m.getLsbD k)) ∧
    (∀ d : Byte, 64 ≤ d.toNat → s.process (wordOf 0x30 0 d) = .next (s.withError 0x10#6 .illCmd))
end

