-- ==== Sys2Proof/Laws/Memory.lean ====
section
/-! SUPPORT. The laws of a frame buffer: reading after writing, the canonical form, ranges. -/

namespace Sys2Proof.Machine

@[simp] theorem Memory.read_nil (a : Nat) : Memory.read [] a = 0 := rfl

@[simp] theorem Memory.wf_nil : Memory.wf [] = true := rfl

theorem Memory.read_cons (b : Nat) (w : Byte) (m : Memory) (a : Nat) :
    Memory.read ((b, w) :: m) a = if a = b then w else Memory.read m a := rfl

theorem Memory.wf_cons (a : Nat) (v : Byte) (m : Memory) :
    Memory.wf ((a, v) :: m) = true ↔ v ≠ 0 ∧ (∀ c ∈ m, a < c.1) ∧ Memory.wf m = true := by
  simp [Memory.wf, and_assoc]

/-- A buffer reads 0x00 below its first cell. -/
theorem Memory.read_of_lt_all (m : Memory) (a : Nat) (h : ∀ c ∈ m, a < c.1) : m.read a = 0 := by
  induction m with
  | nil => rfl
  | cons c m ih =>
    obtain ⟨b, w⟩ := c
    have hb : a < b := h (b, w) (by simp)
    rw [Memory.read_cons, if_neg (by omega)]
    exact ih (fun c hc => h c (by simp [hc]))

/-- A write changes no other offset. -/
theorem Memory.read_write_ne (m : Memory) (a b : Nat) (v : Byte) (h : b ≠ a) :
    (m.write a v).read b = m.read b := by
  induction m with
  | nil => simp only [Memory.write]; split <;> simp [Memory.read, h]
  | cons c m ih =>
    obtain ⟨d, w⟩ := c
    simp only [Memory.write]
    split
    · split <;> simp [Memory.read, h]
    · split
      · next h2 => subst h2; split <;> simp [Memory.read, h]
      · simp [Memory.read, ih]

/-- A write is read back, in a buffer of canonical form. -/
theorem Memory.read_write_same (m : Memory) (a : Nat) (v : Byte) (hm : m.wf = true) :
    (m.write a v).read a = v := by
  induction m with
  | nil =>
    simp only [Memory.write]
    split
    · next h => simp [h]
    · simp [Memory.read]
  | cons c m ih =>
    obtain ⟨d, w⟩ := c
    obtain ⟨-, hall, hwf⟩ := (Memory.wf_cons d w m).1 hm
    simp only [Memory.write]
    split
    · next hlt =>
      split
      · next hv =>
        rw [hv]
        refine Memory.read_of_lt_all _ _ (fun c hc => ?_)
        rcases List.mem_cons.1 hc with rfl | hc
        · exact hlt
        · exact Nat.lt_trans hlt (hall c hc)
      · simp [Memory.read]
    · split
      · next heq =>
        subst heq
        split
        · next hv => rw [hv]; exact Memory.read_of_lt_all _ _ hall
        · simp [Memory.read]
      · next hne => rw [Memory.read_cons, if_neg hne]; exact ih hwf

theorem Memory.mem_write (m : Memory) (a : Nat) (v : Byte) (c : Host.Cell) (h : c ∈ m.write a v) :
    c = (a, v) ∨ c ∈ m := by
  induction m with
  | nil => simp only [Memory.write] at h; split at h <;> simp_all
  | cons d m ih =>
    obtain ⟨b, w⟩ := d
    simp only [Memory.write] at h
    split at h
    · split at h
      · exact .inr h
      · simpa using h
    · split at h
      · split at h
        · exact .inr (by simp [h])
        · rcases List.mem_cons.1 h with h | h
          · exact .inl h
          · exact .inr (by simp [h])
      · rcases List.mem_cons.1 h with h | h
        · exact .inr (by simp [h])
        · rcases ih h with h | h
          · exact .inl h
          · exact .inr (by simp [h])

/-- A write keeps the canonical form. -/
theorem Memory.wf_write (m : Memory) (a : Nat) (v : Byte) (hm : m.wf = true) :
    (m.write a v).wf = true := by
  induction m with
  | nil =>
    simp only [Memory.write]
    split
    · rfl
    · next h => exact (Memory.wf_cons _ _ _).2 ⟨h, by simp, rfl⟩
  | cons c m ih =>
    obtain ⟨d, w⟩ := c
    obtain ⟨hw, hall, hwf⟩ := (Memory.wf_cons d w m).1 hm
    simp only [Memory.write]
    split
    · next hlt =>
      split
      · exact hm
      · next hv =>
        refine (Memory.wf_cons _ _ _).2 ⟨hv, fun c hc => ?_, hm⟩
        rcases List.mem_cons.1 hc with rfl | hc
        · exact hlt
        · exact Nat.lt_trans hlt (hall c hc)
    · split
      · next heq =>
        subst heq
        split
        · exact hwf
        · next hv => exact (Memory.wf_cons _ _ _).2 ⟨hv, hall, hwf⟩
      · next hlt hne =>
        refine (Memory.wf_cons _ _ _).2 ⟨hw, fun c hc => ?_, ih hwf⟩
        rcases Memory.mem_write m a v c hc with rfl | hc
        · show d < a; omega
        · exact hall c hc

/-- Two buffers of canonical form that read the same are the same data. -/
theorem Memory.ext_of_read (m n : Memory) (hm : m.wf = true) (hn : n.wf = true)
    (h : ∀ a, m.read a = n.read a) : m = n := by
  induction m generalizing n with
  | nil =>
    cases n with
    | nil => rfl
    | cons c n =>
      obtain ⟨b, w⟩ := c
      have := h b
      simp only [Memory.read_nil, Memory.read_cons, if_true] at this
      exact absurd this.symm ((Memory.wf_cons b w n).1 hn).1
  | cons c m ih =>
    obtain ⟨a, v⟩ := c
    obtain ⟨hv, hma, hmw⟩ := (Memory.wf_cons a v m).1 hm
    cases n with
    | nil =>
      have := h a
      simp only [Memory.read_nil, Memory.read_cons, if_true] at this
      exact absurd this hv
    | cons d n =>
      obtain ⟨b, w⟩ := d
      obtain ⟨hw, hnb, hnw⟩ := (Memory.wf_cons b w n).1 hn
      have hab : a = b := by
        rcases Nat.lt_trichotomy a b with hlt | heq | hgt
        · have h1 := h a
          rw [Memory.read_cons, if_pos rfl, Memory.read_cons, if_neg (by omega),
            Memory.read_of_lt_all n a (fun c hc => Nat.lt_trans hlt (hnb c hc))] at h1
          exact absurd h1 hv
        · exact heq
        · have h1 := h b
          rw [Memory.read_cons, if_neg (by omega), Memory.read_cons, if_pos rfl,
            Memory.read_of_lt_all m b (fun c hc => Nat.lt_trans hgt (hma c hc))] at h1
          exact absurd h1.symm hw
      subst hab
      have hvw : v = w := by
        have h1 := h a
        rwa [Memory.read_cons, if_pos rfl, Memory.read_cons, if_pos rfl] at h1
      subst hvw
      have hmn : m = n := by
        refine ih n hmw hnw (fun x => ?_)
        by_cases hx : x = a
        · subst hx; rw [Memory.read_of_lt_all m x hma, Memory.read_of_lt_all n x hnb]
        · have h1 := h x
          rwa [Memory.read_cons, if_neg hx, Memory.read_cons, if_neg hx] at h1
      rw [hmn]

/-- A buffer of canonical form that reads 0x00 everywhere is the empty list. -/
theorem Memory.eq_nil_of_zeroFrom (m : Memory) (hm : m.wf = true) (h : m.zeroFrom 0) : m = [] :=
  Memory.ext_of_read m [] hm rfl (fun a => h a (Nat.zero_le a))

@[simp] theorem Memory.zeroFrom_nil (n : Nat) : Memory.zeroFrom [] n := fun _ _ => rfl

/-- A write below a bound keeps the bytes at and above it 0x00. -/
theorem Memory.zeroFrom_write (m : Memory) (a n : Nat) (v : Byte) (h : m.zeroFrom n) (ha : a < n) :
    (m.write a v).zeroFrom n := fun i hi => by
  rw [Memory.read_write_ne _ _ _ _ (by omega)]; exact h i hi

/-- A write at the bound raises the bound by one. -/
theorem Memory.zeroFrom_write_end (m : Memory) (n : Nat) (v : Byte) (h : m.zeroFrom n) :
    (m.write n v).zeroFrom (n + 1) := fun i hi => by
  rw [Memory.read_write_ne _ _ _ _ (by omega)]; exact h i (by omega)

/-- A buffer whose cells all lie below a bound is zero from it on. -/
theorem Memory.zeroFrom_of_cells (m : Memory) (n : Nat) (h : ∀ c ∈ m, c.1 < n) : m.zeroFrom n := by
  induction m with
  | nil => exact fun _ _ => rfl
  | cons c m ih =>
    obtain ⟨b, w⟩ := c
    intro i hi
    have hb : b < n := h (b, w) (by simp)
    rw [Memory.read_cons, if_neg (by omega)]
    exact ih (fun c hc => h c (by simp [hc])) i hi

@[simp] theorem Memory.bytes_length (m : Memory) (lo hi : Nat) : (m.bytes lo hi).length = hi - lo := by
  simp [Memory.bytes]

/-- A range that ends where it begins, or before, is empty (R9). -/
theorem Memory.bytes_empty (m : Memory) (lo hi : Nat) (h : hi ≤ lo) : m.bytes lo hi = [] := by
  simp [Memory.bytes, Nat.sub_eq_zero_of_le h]

/-- A range one byte longer. -/
theorem Memory.bytes_succ (m : Memory) (lo hi : Nat) (h : lo ≤ hi) :
    m.bytes lo (hi + 1) = m.bytes lo hi ++ [m.read hi] := by
  have : hi + 1 - lo = (hi - lo) + 1 := by omega
  simp only [Memory.bytes, this, List.range'_concat, List.map_append, List.map_cons, List.map_nil]
  congr 3
  omega

/-- A range depends only on the bytes in it. -/
theorem Memory.bytes_congr (m n : Memory) (lo hi : Nat)
    (h : ∀ i, lo ≤ i → i < hi → m.read i = n.read i) : m.bytes lo hi = n.bytes lo hi := by
  refine List.map_congr_left (fun i hi' => ?_)
  obtain ⟨h1, h2⟩ := List.mem_range'_1.1 hi'
  exact h i h1 (by omega)

end Sys2Proof.Machine
end

