-- ==== Sys2Proof/Laws/Codec.lean ====
section
/-! SUPPORT. The laws of the codec: a range one byte longer, and what a range depends on. -/

namespace Sys2Proof

/-- Entry 0 of the CRC table is 0x00, for every table (R6). -/
@[simp] theorem Config.crcEntry_zero (c : Config) : c.crcEntry 0#8 = 0#8 := by
  simp [Config.crcEntry]

/-- The bounds of `FRAME_CAP` (R6). -/
theorem Config.frameCap_bounds (c : Config) : 40 ≤ c.frameCap ∧ c.frameCap ≤ 256 := by
  have := c.capOver40.isLt
  unfold Config.frameCap
  omega

namespace Machine

/-- The sum over a range one byte longer. -/
theorem byteSum_concat (m : Memory) (lo hi : Nat) (h : lo ≤ hi) :
    byteSum m lo (hi + 1) = byteSum m lo hi + (m.read hi).toNat := by
  simp [byteSum, Memory.bytes_succ m lo hi h]

/-- The CRC depends only on the bytes of its range. -/
theorem crc8_congr (c : Config) (m n : Memory) (lo hi : Nat)
    (h : ∀ i, lo ≤ i → i < hi → m.read i = n.read i) : crc8 c m lo hi = crc8 c n lo hi := by
  simp [crc8, Memory.bytes_congr m n lo hi h]

/-- The sum depends only on the bytes of its range. -/
theorem byteSum_congr (m n : Memory) (lo hi : Nat)
    (h : ∀ i, lo ≤ i → i < hi → m.read i = n.read i) : byteSum m lo hi = byteSum n lo hi := by
  simp [byteSum, Memory.bytes_congr m n lo hi h]

end Machine

end Sys2Proof
end

