-- ==== Sys2Proof/Laws/Decode.lean ====
section
/-! SUPPORT. The fields of a word built from its fields, and the word rebuilt from its fields. -/

namespace Sys2Proof

theorem wordOf_toNat (op a d : Byte) :
    (wordOf op a d).toNat = op.toNat * 16777216 + a.toNat * 256 + d.toNat := by
  have := op.isLt; have := a.isLt; have := d.isLt
  simp only [wordOf, BitVec.toNat_append, BitVec.toNat_ofNat]
  rw [← Nat.shiftLeft_add_eq_or_of_lt (by omega), ← Nat.shiftLeft_add_eq_or_of_lt (by omega),
    ← Nat.shiftLeft_add_eq_or_of_lt (by omega)]
  simp only [Nat.shiftLeft_eq]
  omega

@[simp] theorem opField_wordOf (op a d : Byte) : opField (wordOf op a d) = op := by
  have := op.isLt; have := a.isLt; have := d.isLt
  apply BitVec.eq_of_toNat_eq
  simp only [opField, BitVec.extractLsb'_toNat, wordOf_toNat, Nat.shiftRight_eq_div_pow]
  omega

@[simp] theorem reservedField_wordOf (op a d : Byte) : reservedField (wordOf op a d) = 0 := by
  have := op.isLt; have := a.isLt; have := d.isLt
  apply BitVec.eq_of_toNat_eq
  have z : (0 : Byte).toNat = 0 := rfl
  simp only [reservedField, BitVec.extractLsb'_toNat, wordOf_toNat, Nat.shiftRight_eq_div_pow, z]
  omega

@[simp] theorem aField_wordOf (op a d : Byte) : aField (wordOf op a d) = a := by
  have := op.isLt; have := a.isLt; have := d.isLt
  apply BitVec.eq_of_toNat_eq
  simp only [aField, BitVec.extractLsb'_toNat, wordOf_toNat, Nat.shiftRight_eq_div_pow]
  omega

@[simp] theorem dField_wordOf (op a d : Byte) : dField (wordOf op a d) = d := by
  have := op.isLt; have := a.isLt; have := d.isLt
  apply BitVec.eq_of_toNat_eq
  simp only [dField, BitVec.extractLsb'_toNat, wordOf_toNat, Nat.shiftRight_eq_div_pow]
  omega

/-- A word whose reserved field is zero is rebuilt from its other fields. -/
theorem wordOf_fields (w : EventWord) (h : reservedField w = 0) :
    wordOf (opField w) (aField w) (dField w) = w := by
  have hw := w.isLt
  have z : (0 : Byte).toNat = 0 := rfl
  have h0 := congrArg BitVec.toNat h
  apply BitVec.eq_of_toNat_eq
  simp only [reservedField, BitVec.extractLsb'_toNat, Nat.shiftRight_eq_div_pow, z] at h0
  rw [wordOf_toNat]
  simp only [opField, aField, dField, BitVec.extractLsb'_toNat, Nat.shiftRight_eq_div_pow]
  omega

/-- All that `requireZero` can do. -/
theorem requireZero_eq_ok (v : Byte) (why : Illegal) (k : Except Illegal Instr) (i : Instr) :
    requireZero v why k = .ok i ↔ v = 0 ∧ k = .ok i := by
  unfold requireZero; split <;> simp_all

theorem requireZero_eq_error (v : Byte) (why : Illegal) (k : Except Illegal Instr) :
    (∃ e, requireZero v why k = .error e) ↔ v ≠ 0 ∨ ∃ e, k = .error e := by
  unfold requireZero; split <;> simp_all

/-- All that `requireOffset` can do. -/
theorem requireOffset_eq_ok (cap : Nat) (a : Byte) (j i : Instr) :
    requireOffset cap a j = .ok i ↔ a.toNat < cap ∧ j = i := by
  unfold requireOffset offsetInCap; split <;> simp_all

theorem requireOffset_eq_error (cap : Nat) (a : Byte) (j : Instr) :
    (∃ e, requireOffset cap a j = .error e) ↔ cap ≤ a.toNat := by
  unfold requireOffset offsetInCap; split <;> simp_all

/-- The register map read at a register's own address (R76). -/
@[simp] theorem regAt_regAddr (r : Reg) : regAt (regAddr r) = some r := by
  cases r with
  | slotLen s => revert s; decide
  | slotAge s => revert s; decide
  | slotTag s => revert s; decide
  | status => rfl
  | verify => rfl
  | rxState => rfl
  | rxLen => rfl
  | rxRem => rfl
  | stgLen => rfl
  | stgTag => rfl
  | qCtrl => rfl
  | qCount => rfl
  | cap => rfl
  | qDepth => rfl

end Sys2Proof
end

