-- ==== Sys2Proof/Laws/State.lean ====
section
/-! SUPPORT. One lemma per field per named update of the state, the receiver and the queue, true by rfl. -/

namespace Sys2Proof.Machine

@[simp] theorem State.emit_cfg (s : State) (e : Event) : (s.emit e).cfg = s.cfg := rfl
@[simp] theorem State.emit_rx (s : State) (e : Event) : (s.emit e).rx = s.rx := rfl
@[simp] theorem State.emit_stg (s : State) (e : Event) : (s.emit e).stg = s.stg := rfl
@[simp] theorem State.emit_q (s : State) (e : Event) : (s.emit e).q = s.q := rfl
@[simp] theorem State.emit_status (s : State) (e : Event) : (s.emit e).status = s.status := rfl
@[simp] theorem State.emit_verify (s : State) (e : Event) : (s.emit e).verify = s.verify := rfl
@[simp] theorem State.emit_inputs (s : State) (e : Event) : (s.emit e).inputs = s.inputs := rfl
@[simp] theorem State.emit_out (s : State) (e : Event) : (s.emit e).out = s.out ++ [e] := rfl

@[simp] theorem State.raiseError_cfg (s : State) (c : ErrCode) : (s.raiseError c).cfg = s.cfg := rfl
@[simp] theorem State.raiseError_rx (s : State) (c : ErrCode) : (s.raiseError c).rx = s.rx := rfl
@[simp] theorem State.raiseError_stg (s : State) (c : ErrCode) : (s.raiseError c).stg = s.stg := rfl
@[simp] theorem State.raiseError_q (s : State) (c : ErrCode) : (s.raiseError c).q = s.q := rfl
@[simp] theorem State.raiseError_status (s : State) (c : ErrCode) : (s.raiseError c).status = statusSet s.status c := rfl
@[simp] theorem State.raiseError_verify (s : State) (c : ErrCode) : (s.raiseError c).verify = s.verify := rfl
@[simp] theorem State.raiseError_inputs (s : State) (c : ErrCode) : (s.raiseError c).inputs = s.inputs := rfl
@[simp] theorem State.raiseError_out (s : State) (c : ErrCode) : (s.raiseError c).out = s.out ++ [.err c] := rfl

@[simp] theorem State.illegalWord_cfg (s : State)  : (s.illegalWord).cfg = s.cfg := rfl
@[simp] theorem State.illegalWord_rx (s : State)  : (s.illegalWord).rx = s.rx := rfl
@[simp] theorem State.illegalWord_stg (s : State)  : (s.illegalWord).stg = s.stg := rfl
@[simp] theorem State.illegalWord_q (s : State)  : (s.illegalWord).q = s.q := rfl
@[simp] theorem State.illegalWord_status (s : State)  : (s.illegalWord).status = statusSet s.status .illCmd := rfl
@[simp] theorem State.illegalWord_verify (s : State)  : (s.illegalWord).verify = s.verify := rfl
@[simp] theorem State.illegalWord_inputs (s : State)  : (s.illegalWord).inputs = s.inputs := rfl
@[simp] theorem State.illegalWord_out (s : State)  : (s.illegalWord).out = s.out ++ [.err .illCmd] := rfl

@[simp] theorem State.withError_cfg (s : State) (b : BitVec 6) (c : ErrCode) : (s.withError b c).cfg = s.cfg := rfl
@[simp] theorem State.withError_rx (s : State) (b : BitVec 6) (c : ErrCode) : (s.withError b c).rx = s.rx := rfl
@[simp] theorem State.withError_stg (s : State) (b : BitVec 6) (c : ErrCode) : (s.withError b c).stg = s.stg := rfl
@[simp] theorem State.withError_q (s : State) (b : BitVec 6) (c : ErrCode) : (s.withError b c).q = s.q := rfl
@[simp] theorem State.withError_status (s : State) (b : BitVec 6) (c : ErrCode) : (s.withError b c).status = s.status ||| b := rfl
@[simp] theorem State.withError_verify (s : State) (b : BitVec 6) (c : ErrCode) : (s.withError b c).verify = s.verify := rfl
@[simp] theorem State.withError_inputs (s : State) (b : BitVec 6) (c : ErrCode) : (s.withError b c).inputs = s.inputs := rfl
@[simp] theorem State.withError_out (s : State) (b : BitVec 6) (c : ErrCode) : (s.withError b c).out = s.out ++ [.err c] := rfl

@[simp] theorem State.withFetchWord_cfg (s : State) (n w : Nat) : (s.withFetchWord n w).cfg = s.cfg := rfl
@[simp] theorem State.withFetchWord_rx (s : State) (n w : Nat) : (s.withFetchWord n w).rx = s.rx := rfl
@[simp] theorem State.withFetchWord_stg (s : State) (n w : Nat) : (s.withFetchWord n w).stg = s.stg := rfl
@[simp] theorem State.withFetchWord_q (s : State) (n w : Nat) : (s.withFetchWord n w).q = s.q := rfl
@[simp] theorem State.withFetchWord_status (s : State) (n w : Nat) : (s.withFetchWord n w).status = s.status := rfl
@[simp] theorem State.withFetchWord_verify (s : State) (n w : Nat) : (s.withFetchWord n w).verify = s.verify := rfl
@[simp] theorem State.withFetchWord_inputs (s : State) (n w : Nat) : (s.withFetchWord n w).inputs = Instant.hostWord (tableWord n w) :: s.inputs := rfl
@[simp] theorem State.withFetchWord_out (s : State) (n w : Nat) : (s.withFetchWord n w).out = s.out := rfl

@[simp] theorem State.resetWith_cfg (c : Config) (ins : List Instant) (evs : List Event) :
    (State.resetWith c ins evs).cfg = c := rfl
@[simp] theorem State.resetWith_rx (c : Config) (ins : List Instant) (evs : List Event) :
    (State.resetWith c ins evs).rx = { phase := .idle, buf := [], len := 0, rem := 0 } := rfl
@[simp] theorem State.resetWith_stg (c : Config) (ins : List Instant) (evs : List Event) :
    (State.resetWith c ins evs).stg = { buf := [], len := 0, tag := 0 } := rfl
@[simp] theorem State.resetWith_status (c : Config) (ins : List Instant) (evs : List Event) :
    (State.resetWith c ins evs).status = 0 := rfl
@[simp] theorem State.resetWith_verify (c : Config) (ins : List Instant) (evs : List Event) :
    (State.resetWith c ins evs).verify = 0 := rfl
@[simp] theorem State.resetWith_inputs (c : Config) (ins : List Instant) (evs : List Event) :
    (State.resetWith c ins evs).inputs = ins := rfl
@[simp] theorem State.resetWith_out (c : Config) (ins : List Instant) (evs : List Event) :
    (State.resetWith c ins evs).out = evs := rfl
@[simp] theorem State.resetWith_q_head (c : Config) (ins : List Instant) (evs : List Event) :
    (State.resetWith c ins evs).q.head = 0 := rfl
@[simp] theorem State.resetWith_q_tail (c : Config) (ins : List Instant) (evs : List Event) :
    (State.resetWith c ins evs).q.tail = 0 := rfl
@[simp] theorem State.resetWith_q_empty (c : Config) (ins : List Instant) (evs : List Event) :
    (State.resetWith c ins evs).q.empty = true := rfl

@[simp] theorem Receiver.clear_phase (r : Receiver) : r.clear.phase = r.phase := rfl
@[simp] theorem Receiver.clear_buf (r : Receiver) : r.clear.buf = [] := rfl
@[simp] theorem Receiver.clear_len (r : Receiver) : r.clear.len = 0 := rfl
@[simp] theorem Receiver.clear_rem (r : Receiver) : r.clear.rem = 0 := rfl

@[simp] theorem Queue.setSlot_head (q : Queue) (i : BitVec 4) (e : Slot) : (q.setSlot i e).head = q.head := rfl
@[simp] theorem Queue.setSlot_tail (q : Queue) (i : BitVec 4) (e : Slot) : (q.setSlot i e).tail = q.tail := rfl
@[simp] theorem Queue.setSlot_empty (q : Queue) (i : BitVec 4) (e : Slot) : (q.setSlot i e).empty = q.empty := rfl
@[simp] theorem Queue.ageHead_head (q : Queue) : q.ageHead.head = q.head := rfl
@[simp] theorem Queue.ageHead_tail (q : Queue) : q.ageHead.tail = q.tail := rfl
@[simp] theorem Queue.ageHead_empty (q : Queue) : q.ageHead.empty = q.empty := rfl
@[simp] theorem Staging.toSlot_buf (g : Staging) : g.toSlot.buf = g.buf := rfl
@[simp] theorem Staging.toSlot_len (g : Staging) : g.toSlot.len = g.len := rfl
@[simp] theorem Staging.toSlot_tag (g : Staging) : g.toSlot.tag = g.tag := rfl
@[simp] theorem Staging.toSlot_age (g : Staging) : g.toSlot.age = 0 := rfl
@[simp] theorem Slot.zero_buf : Slot.zero.buf = [] := rfl
@[simp] theorem Slot.zero_len : Slot.zero.len = 0 := rfl
@[simp] theorem Slot.zero_tag : Slot.zero.tag = 0 := rfl
@[simp] theorem Slot.zero_age : Slot.zero.age = 0 := rfl

/-- The slot of a queue depends on its slots alone. -/
@[simp] theorem Queue.slot_mk (v : Vector Slot 16) (h t : BitVec 4) (e : Bool) (i : BitVec 4) :
    (Queue.mk v h t e).slot i = v[i.toNat]'i.isLt := rfl

/-- A slot read back after it is replaced. -/
@[simp] theorem Queue.slot_setSlot_same (q : Queue) (i : BitVec 4) (e : Slot) :
    (q.setSlot i e).slot i = e := by
  simp [Queue.slot, Queue.setSlot]

/-- Replacing a slot leaves every other slot alone. -/
theorem Queue.slot_setSlot_ne (q : Queue) (i j : BitVec 4) (e : Slot) (h : j ≠ i) :
    (q.setSlot i e).slot j = q.slot j := by
  have hn : i.toNat ≠ j.toNat := fun hh => h (BitVec.eq_of_toNat_eq hh.symm)
  simp only [Queue.slot, Queue.setSlot]
  exact Vector.getElem_set_ne i.isLt j.isLt hn

/-- Replacing a slot twice keeps the second. -/
@[simp] theorem Queue.setSlot_setSlot (q : Queue) (i : BitVec 4) (e f : Slot) :
    (q.setSlot i e).setSlot i f = q.setSlot i f := by
  simp [Queue.setSlot]

/-- Every slot is zero at reset (R22). -/
@[simp] theorem State.resetWith_q_slot (c : Config) (ins : List Instant) (evs : List Event)
    (i : BitVec 4) : (State.resetWith c ins evs).q.slot i = Slot.zero := by
  simp [State.resetWith, Queue.slot]

/-- Every buffer has the canonical form at reset (log 8). -/
theorem State.reset_canonical : State.reset.canonical := by
  refine ⟨rfl, rfl, fun i => ?_⟩
  simp [State.reset, Slot.zero]

end Sys2Proof.Machine
end

