-- ==== Sys2Proof/Laws/Queue.lean ====
section
/-! SUPPORT. The laws of the queue's operations: retiring, ageing, counting, the entries. -/

namespace Sys2Proof.Machine

/-- The head entry, or none when the queue is empty (R65). -/
theorem Queue.peekHead_eq_none (q : Queue) : q.peekHead = none ↔ q.empty = true := by
  unfold Queue.peekHead; split <;> simp_all

theorem Queue.peekHead_eq_some (q : Queue) (e : Slot) :
    q.peekHead = some e ↔ q.empty = false ∧ q.slot q.head = e := by
  unfold Queue.peekHead; split <;> simp_all

/-- All that ageing the head does: the head slot is one tick older, every other slot stays. -/
theorem Queue.slot_ageHead (q : Queue) (i : BitVec 4) :
    q.ageHead.slot i =
      if i = q.head then { q.slot q.head with age := (q.slot q.head).age + 1 } else q.slot i := by
  unfold Queue.ageHead
  split
  · next h => subst h; simp
  · next h => exact Queue.slot_setSlot_ne _ _ _ _ h

/-- All that retiring does to the slots: the head's is zero, every other slot stays. -/
theorem Queue.slot_retireHead (q : Queue) (i : BitVec 4) :
    q.retireHead.slot i = if i = q.head then Slot.zero else q.slot i := by
  have key : (q.setSlot q.head Slot.zero).slot i = if i = q.head then Slot.zero else q.slot i := by
    split
    · next h => subst h; simp
    · next h => exact Queue.slot_setSlot_ne _ _ _ _ h
  unfold Queue.retireHead
  split <;> exact key

/-- Retiring the only entry gives the empty queue's indices (R66). -/
theorem Queue.retireHead_only (q : Queue) (h : q.head = q.tail) :
    q.retireHead.head = 0 ∧ q.retireHead.tail = 0 ∧ q.retireHead.empty = true := by
  simp [Queue.retireHead, h]

/-- Retiring one entry of several advances the head (R66). -/
theorem Queue.retireHead_more (q : Queue) (h : q.head ≠ q.tail) :
    q.retireHead.head = q.head + 1 ∧ q.retireHead.tail = q.tail ∧ q.retireHead.empty = q.empty := by
  simp [Queue.retireHead, h]

theorem Queue.count_of_empty (q : Queue) (h : q.empty = true) : q.count = 0 := by
  simp [Queue.count, h]

theorem Queue.count_of_nonempty (q : Queue) (h : q.empty = false) :
    q.count = (q.tail - q.head).toNat + 1 := by
  simp [Queue.count, h]

@[simp] theorem Queue.entries_length (q : Queue) : q.entries.length = q.count := by
  simp [Queue.entries]

end Sys2Proof.Machine
end

