-- ==== Sys2Proof/Laws/Ops.lean ====
section
/-! SUPPORT. For each shared operation, once, everything it can do. -/

namespace Sys2Proof.Machine

/-- Appending to the staging frame: STG_ERR when full, the byte and the length when there is room, a
fault when the length is beyond its legal values. -/
theorem stgAppend_cases (s : State) (d : Byte) :
    (s.stg.len.toNat = s.cfg.frameCap ∧ s.stgAppend d = .next (s.raiseError .stgErr)) ∨
    (s.stg.len.toNat < s.cfg.frameCap ∧ s.stgAppend d = .next { s with stg := { s.stg with
      buf := s.stg.buf.write s.stg.len.toNat d, len := s.stg.len + 1 } }) ∨
    (s.cfg.frameCap < s.stg.len.toNat ∧ s.stgAppend d = .fault .outsideBuffer) := by
  unfold State.stgAppend
  split
  · next h => exact .inl ⟨h, rfl⟩
  · split
    · next h => exact .inr (.inr ⟨h, rfl⟩)
    · next h1 h2 => exact .inr (.inl ⟨by omega, rfl⟩)

/-- Reading a buffer byte: RESP within the buffer, an illegal word beyond it. -/
theorem readByte_cases (s : State) (m : Memory) (a : Byte) :
    (a.toNat < s.cfg.frameCap ∧ s.readByte m a = s.emit (.resp ((m.read a.toNat).setWidth 16))) ∨
    (s.cfg.frameCap ≤ a.toNat ∧ s.readByte m a = s.illegalWord) := by
  unfold State.readByte offsetInCap
  by_cases h : a.toNat < s.cfg.frameCap
  · exact .inl ⟨h, by simp [h]⟩
  · exact .inr ⟨by omega, by simp [h]⟩

/-- The acknowledgement match: on a match ACK and the head retired, else nothing. -/
theorem ackMatch_cases (s : State) (n : Nat) :
    (s.ackMatches n = true ∧
      s.ackMatch n = { s with out := s.out ++ [.ack s.q.head], q := s.q.retireHead }) ∨
    (s.ackMatches n = false ∧ s.ackMatch n = s) := by
  unfold State.ackMatch
  cases h : s.ackMatches n
  · exact .inr ⟨rfl, by simp⟩
  · exact .inl ⟨rfl, by simp [State.emit]⟩

/-- A match needs an entry, an inbound frame that holds offset 32, and equal bytes there (R67). -/
theorem ackMatches_iff (s : State) (n : Nat) :
    s.ackMatches n = true ↔ s.q.empty = false ∧ 32 < n ∧
      (s.q.slot s.q.head).buf.read 32 = s.rx.buf.read 32 := by
  unfold State.ackMatches Queue.peekHead
  cases h : s.q.empty <;> simp [ackOff]

/-- What validation records: STATUS bits among the first three and their ERR events, nothing else. -/
theorem recordChecks_frame (s : State) (n : Nat) :
    ∃ st evs, s.recordChecks n = { s with status := st, out := s.out ++ evs } := by
  unfold State.recordChecks
  split
  · exact ⟨_, _, rfl⟩
  · split <;> split
    · exact ⟨s.status, [], by simp⟩
    · exact ⟨_, _, rfl⟩
    · exact ⟨_, _, rfl⟩
    · refine ⟨statusSet (statusSet s.status .crcErr) .chkErr, [.err .crcErr, .err .chkErr], ?_⟩
      simp [State.raiseError]

/-- Handing on a frame: events, and the queue as it was or with its head retired. -/
theorem handOn_cases (s : State) (n : Nat) :
    (s.handOn n = { s with out := s.out ++ [.frame n (s.rx.buf.bytes 0 n) s.isReport] }) ∨
    (s.isReport = true ∧ s.q.empty = false ∧ s.handOn n = { s with
      out := s.out ++ [.frame n (s.rx.buf.bytes 0 n) true, .ack s.q.head], q := s.q.retireHead }) := by
  unfold State.handOn
  cases hr : s.isReport
  · exact .inl (by simp [State.emit])
  · rcases ackMatch_cases (s.emit (.frame n (s.rx.buf.bytes 0 n) true)) n with ⟨hm, h⟩ | ⟨-, h⟩
    · refine .inr ⟨rfl, ((ackMatches_iff _ _).1 hm).1, ?_⟩
      simp only [if_true, h]
      simp [State.emit]
    · exact .inl (by simp only [if_true, h]; rfl)

/-- Completion: the receiver is cleared and IDLE, and of the rest only STATUS, the output and the queue
can change, the queue only by retiring its head. -/
theorem complete_frame (s : State) :
    ∃ st evs q, s.complete = { s with
        rx := { phase := .idle, buf := [], len := 0, rem := 0 }, status := st,
        out := s.out ++ evs, q := q } ∧
      (q = s.q ∨ (s.q.empty = false ∧ q = s.q.retireHead)) := by
  obtain ⟨st, evs, h⟩ := recordChecks_frame s s.rx.len.toNat
  unfold State.complete
  simp only [h]
  split
  · rcases handOn_cases { s with status := st, out := s.out ++ evs } s.rx.len.toNat with h2 | ⟨-, he, h2⟩
    · rw [h2]
      exact ⟨st, _, s.q, by simp only [List.append_assoc]; rfl, .inl rfl⟩
    · rw [h2]
      exact ⟨st, _, s.q.retireHead, by simp only [List.append_assoc]; rfl, .inr ⟨he, rfl⟩⟩
  · exact ⟨st, evs, s.q, rfl, .inl rfl⟩

end Sys2Proof.Machine
end

