-- ==== Sys2Proof/Laws/PerInstr.lean ====
section
/-! SUPPORT. What holds of each operation as syntax, one lemma per constructor: the fields of its event word. -/

namespace Sys2Proof.Laws.EncodedFields

/-- The event word of an operation has the operation's fields, and a zero reserved field (R33). -/
def Statement (i : Instr) : Prop :=
  opField (encode i) = i.opcode ∧ reservedField (encode i) = 0 ∧
  aField (encode i) = i.aByte ∧ dField (encode i) = i.dByte

/-- It holds of every operation. -/
theorem all (i : Instr) : Statement i := by
  simp [Statement, encode]

theorem nop : Statement (.nop) := all _
theorem rxb (d : Byte) : Statement (.rxb d) := all _
theorem tick : Statement (.tick) := all _
theorem sclr : Statement (.sclr) := all _
theorem spush (d : Byte) : Statement (.spush d) := all _
theorem swr (a d : Byte) : Statement (.swr a d) := all _
theorem stag (d : Byte) : Statement (.stag d) := all _
theorem scrc : Statement (.scrc) := all _
theorem schk : Statement (.schk) := all _
theorem sver : Statement (.sver) := all _
theorem enq : Statement (.enq) := all _
theorem rdreg (r : Reg) : Statement (.rdreg r) := all _
theorem rdstg (a : Byte) : Statement (.rdstg a) := all _
theorem rdrx (a : Byte) : Statement (.rdrx a) := all _
theorem rdslot (a : Byte) (s : BitVec 4) : Statement (.rdslot a s) := all _
theorem clrst (m : BitVec 6) : Statement (.clrst m) := all _

end Sys2Proof.Laws.EncodedFields
end

