-- ==== Sys2Proof/Laws/Step.lean ====
section
/-! SUPPORT. What the larger operations and a step can do, each said once: the frames of RXB, TICK and the
staging writes, and the inversion of the step. -/

namespace Sys2Proof.Machine

/-- Completing a frame in a state whose receiver alone was written. -/
theorem complete_withRx_frame (s : State) (r : Receiver) :
    ∃ rx st evs q, ({ s with rx := r } : State).complete =
        { s with rx := rx, status := st, out := s.out ++ evs, q := q } ∧
      (q = s.q ∨ (s.q.empty = false ∧ q = s.q.retireHead)) := by
  obtain ⟨st, evs, q, h1, h2⟩ := complete_frame { s with rx := r }
  exact ⟨_, st, evs, q, h1, h2⟩

/-- RXB writes the receiver, STATUS, the output and, by retiring its head alone, the queue. -/
theorem execRxb_frame (s t : State) (d : Byte) (h : execRxb d s = .next t) :
    ∃ rx st evs q, t = { s with rx := rx, status := st, out := s.out ++ evs, q := q } ∧
      (q = s.q ∨ (s.q.empty = false ∧ q = s.q.retireHead)) := by
  have keep : ∀ r, ∃ rx st evs q, ({ s with rx := r } : State) =
        { s with rx := rx, status := st, out := s.out ++ evs, q := q } ∧
      (q = s.q ∨ (s.q.empty = false ∧ q = s.q.retireHead)) :=
    fun r => ⟨r, s.status, [], s.q, by simp, .inl rfl⟩
  unfold execRxb at h
  split at h
  · cases h
    unfold State.rxbIdle
    split
    · exact keep _
    · exact keep s.rx
  · cases h
    unfold State.rxbLen
    split
    · exact ⟨_, _, _, s.q, rfl, .inl rfl⟩
    · split
      · exact ⟨_, _, _, s.q, rfl, .inl rfl⟩
      · dsimp only
        split
        · exact complete_withRx_frame s _
        · exact keep _
  · unfold State.rxbPayload at h
    split at h
    · cases h
    · split at h
      · cases h
      · cases h
        dsimp only
        split
        · exact complete_withRx_frame s _
        · exact keep _
  · unfold State.rxbDiscard at h
    split at h
    · cases h
    · cases h
      exact keep _

/-- TICK writes the output and the queue: its head one tick older, or retired. -/
theorem execTick_frame (s t : State) (h : execTick s = .next t) :
    ∃ evs q, t = { s with out := s.out ++ evs, q := q } ∧
      (q = s.q ∨ (s.q.empty = false ∧ q = s.q.ageHead) ∨ (s.q.empty = false ∧ q = s.q.retireHead)) := by
  unfold execTick at h
  split at h
  · cases h; exact ⟨_, _, rfl, .inl rfl⟩
  · next e he =>
    have hne := ((Queue.peekHead_eq_some _ _).1 he).1
    split at h
    · split at h
      · cases h
      · cases h; exact ⟨_, _, rfl, .inr (.inl ⟨hne, rfl⟩)⟩
    · split at h
      · cases h; exact ⟨_, _, rfl, .inr (.inr ⟨hne, rfl⟩)⟩
      · cases h; exact ⟨[], _, by simp, .inr (.inl ⟨hne, rfl⟩)⟩

/-- A staging append writes the staging frame, or records STG_ERR. -/
theorem stgAppend_frame (s t : State) (d : Byte) (h : s.stgAppend d = .next t) :
    (∃ g, t = { s with stg := g }) ∨ t = s.raiseError .stgErr := by
  rcases stgAppend_cases s d with ⟨-, he⟩ | ⟨-, he⟩ | ⟨-, he⟩ <;> rw [he] at h <;> cases h
  · exact .inr rfl
  · exact .inl ⟨_, rfl⟩

/-- SWR writes the staging frame, or records STG_ERR. -/
theorem execSwr_frame (s t : State) (a d : Byte) (h : execSwr a d s = .next t) :
    (∃ g, t = { s with stg := g }) ∨ t = s.raiseError .stgErr := by
  unfold execSwr at h
  split at h
  · cases h; exact .inr rfl
  · split at h
    · cases h
    · cases h; exact .inl ⟨_, rfl⟩

/-- SVER writes VERIFY alone. -/
theorem execSver_frame (s t : State) (h : execSver s = .next t) : ∃ v, t = { s with verify := v } := by
  simp only [execSver] at h
  split at h
  · cases h
  · cases h; exact ⟨_, rfl⟩

/-- ENQ records an error, or writes the queue: a copy of the staging frame in one slot. -/
theorem execEnq_frame (s t : State) (h : execEnq s = .next t) :
    (∃ c, t = s.raiseError c) ∨
    (s.stg.isFrame = true ∧ s.q.empty = true ∧ t = { s with q :=
      { s.q.setSlot 0 s.stg.toSlot with head := 0, tail := 0, empty := false } }) ∨
    (s.stg.isFrame = true ∧ s.q.empty = false ∧ s.q.tail + 1 ≠ s.q.head ∧ t = { s with q :=
      { s.q.setSlot (s.q.tail + 1) s.stg.toSlot with tail := s.q.tail + 1 } }) := by
  unfold execEnq at h
  split at h
  · cases h; exact .inl ⟨_, rfl⟩
  · next hf =>
    have hf : s.stg.isFrame = true := by simpa using hf
    split at h
    · next he => cases h; exact .inr (.inl ⟨hf, he, rfl⟩)
    · next he =>
      split at h
      · cases h; exact .inl ⟨_, rfl⟩
      · next hn => cases h; exact .inr (.inr ⟨hf, by simpa using he, hn, rfl⟩)

/-- All that processing an event word can be: a legal word's operation, or the effect of an illegal one. -/
theorem process_cases (s : State) (w : EventWord) :
    (∃ i, decode s.cfg.frameCap w = .ok i ∧ s.process w = exec i s) ∨
    (∃ e, decode s.cfg.frameCap w = .error e ∧ s.process w = .next s.illegalWord) := by
  unfold State.process
  cases h : decode s.cfg.frameCap w with
  | ok i => exact .inl ⟨i, rfl, rfl⟩
  | error e => exact .inr ⟨e, rfl, rfl⟩

/-- All that a step can be: nothing offered, the reset input, an instant without an event, an illegal word,
or an operation at the state with its event taken. -/
theorem step_cases (s t : State) (h : step s = .next t) :
    t = s ∨
    (∃ now rest, s.inputs = now :: rest ∧ now.reset = true ∧ t = State.resetWith s.cfg rest s.out) ∨
    (∃ rest, t = { s with inputs := rest }) ∨
    (∃ rest, t = ({ s with inputs := rest } : State).illegalWord) ∨
    ∃ i rest, exec i { s with inputs := rest } = .next t := by
  unfold step at h
  split at h
  · cases h; exact .inl rfl
  · next now rest hin =>
    split at h
    · next hr => cases h; exact .inr (.inl ⟨_, _, hin, hr, rfl⟩)
    · split at h
      · cases h; exact .inr (.inr (.inl ⟨_, rfl⟩))
      · next w left _ =>
        rcases process_cases { s with inputs := left.before rest } w with ⟨i, -, hp⟩ | ⟨_, -, hp⟩
        · exact .inr (.inr (.inr (.inr ⟨i, _, hp ▸ h⟩)))
        · rw [hp] at h; cases h; exact .inr (.inr (.inr (.inl ⟨_, rfl⟩)))

/-- A fold over two sequences is the fold over the second from where the first ends (R28). -/
theorem runAll_append (is js : List Instr) (s t : State) (h : runAll is s = .next t) :
    runAll (is ++ js) s = runAll js t := by
  induction is generalizing s with
  | nil => cases h; rfl
  | cons i is ih =>
    simp only [runAll, List.cons_append] at *
    cases hx : exec i s with
    | next u => simp only [hx] at h ⊢; exact ih u h
    | fault f => simp [hx] at h
    | refused r => simp [hx] at h

end Sys2Proof.Machine
end

