-- ==== Sys2Proof/Machine/Assembler.lean ====
section
/-! DEFINITION. The assembler syntax of R40, over lists of characters: operations, pseudo-operations, decimal
and 0x numbers, and a quoted character as a tag. DESIGN CHOICE where R40 is silent (log 15), safe: no step reads
assembly text. -/

namespace Sys2Proof.Machine

/-- The value of a hexadecimal digit (R8, R40). -/
def hexDigit (c : Char) : Option Nat :=
  let n := c.toNat
  if 48 ≤ n ∧ n ≤ 57 then some (n - 48)
  else if 65 ≤ n ∧ n ≤ 70 then some (n - 55)
  else if 97 ≤ n ∧ n ≤ 102 then some (n - 87)
  else none

/-- Digits in a base, most significant first, behind the value read so far. -/
def digits (base : Nat) : List Char → Nat → Option Nat
  | [], v => some v
  | c :: cs, v =>
    match hexDigit c with
    | some d => if d < base then digits base cs (v * base + d) else none
    | none => none

/-- A number: hexadecimal behind `0x`, else decimal (R40). -/
def number : List Char → Option Nat
  | [] => none
  | '0' :: 'x' :: c :: cs => digits 16 (c :: cs) 0
  | cs => digits 10 cs 0

/-- A number in a range, as a bit vector. -/
def operand (w : Nat) (cs : List Char) : Option (BitVec w) :=
  match number cs with
  | some v => if v < 2 ^ w then some (BitVec.ofNat w v) else none
  | none => none

/-- A tag: a byte, or a character in quotes, meaning its ASCII code (R40). -/
def tagOperand (cs : List Char) : Option Byte :=
  match cs with
  | [a, c, b] =>
    if a.toNat = 39 ∧ b.toNat = 39 ∧ c.toNat < 128 then some (BitVec.ofNat 8 c.toNat)
    else operand 8 cs
  | _ => operand 8 cs

/-- The operands of a line: the characters between commas, spaces left out. A comma separates inside quotes too,
and a quoted space is left out, so a tag written as a quoted comma or a quoted space is refused: R40 does not say
which binds first. DESIGN CHOICE (log 15), safe. -/
def splitOperands : List Char → List Char → List (List Char)
  | [], acc => [acc.reverse]
  | c :: cs, acc =>
    if c = ',' then acc.reverse :: splitOperands cs []
    else if c = ' ' then splitOperands cs acc
    else splitOperands cs (c :: acc)

/-- All the bytes of a list of operands. -/
def byteOperands : List (List Char) → Option (List Byte)
  | [] => some []
  | o :: os =>
    match operand 8 o, byteOperands os with
    | some b, some bs => some (b :: bs)
    | _, _ => none

/-- One operand of a byte. -/
def oneByte (os : List (List Char)) (f : Byte → Instr) : Option (List Instr) :=
  match os with
  | [o] => (operand 8 o).map (fun b => [f b])
  | _ => none

/-- No operand. -/
def noOperand (os : List (List Char)) (is : List Instr) : Option (List Instr) :=
  match os with
  | [] => some is
  | _ => none

/-- The operations a mnemonic and its operands stand for, a pseudo-operation expanded (R40). -/
def assembleParts (m : List Char) (os : List (List Char)) : Option (List Instr) :=
  if m = ['N', 'O', 'P'] then noOperand os [.nop]
  else if m = ['R', 'X', 'B'] then oneByte os .rxb
  else if m = ['T', 'I', 'C', 'K'] then noOperand os [.tick]
  else if m = ['S', 'C', 'L', 'R'] then noOperand os [.sclr]
  else if m = ['S', 'P', 'U', 'S', 'H'] then oneByte os .spush
  else if m = ['S', 'W', 'R'] then
    match byteOperands os with
    | some [a, d] => some [.swr a d]
    | _ => none
  else if m = ['S', 'T', 'A', 'G'] then
    match os with
    | [o] => (tagOperand o).map (fun b => [.stag b])
    | _ => none
  else if m = ['S', 'C', 'R', 'C'] then noOperand os [.scrc]
  else if m = ['S', 'C', 'H', 'K'] then noOperand os [.schk]
  else if m = ['S', 'V', 'E', 'R'] then noOperand os [.sver]
  else if m = ['E', 'N', 'Q'] then noOperand os [.enq]
  else if m = ['R', 'D', 'R', 'E', 'G'] then
    match byteOperands os with
    | some [a] => (regAt a).map (fun r => [.rdreg r])
    | _ => none
  else if m = ['R', 'D', 'S', 'T', 'G'] then oneByte os .rdstg
  else if m = ['R', 'D', 'R', 'X'] then oneByte os .rdrx
  else if m = ['R', 'D', 'S', 'L', 'O', 'T'] then
    match os with
    | [o, p] =>
      match operand 8 o, operand 4 p with
      | some a, some s => some [.rdslot a s]
      | _, _ => none
    | _ => none
  else if m = ['C', 'L', 'R', 'S', 'T'] then
    match os with
    | [o] => (operand 6 o).map (fun k => [.clrst k])
    | _ => none
  else if m = ['S', 'L', 'O', 'A', 'D'] then (byteOperands os).map (fun bs => (Pseudo.sload bs).expand)
  else if m = ['S', 'S', 'E', 'A', 'L'] then noOperand os Pseudo.sseal.expand
  else if m = ['S', 'E', 'N', 'D'] then noOperand os Pseudo.send.expand
  else if m = ['R', 'X', 'F'] then (byteOperands os).map (fun bs => (Pseudo.rxf bs).expand)
  else if m = ['T', 'I', 'C', 'K', 'S'] then
    match os with
    | [o] => (number o).map (fun k => (Pseudo.ticks k).expand)
    | _ => none
  else if m = ['C', 'L', 'R', 'A', 'L', 'L'] then noOperand os Pseudo.clrall.expand
  else none

/-- A line of assembly: the mnemonic up to the first space, then the operands (R40). -/
def assembleLine (line : List Char) : Option (List Instr) :=
  let m := line.takeWhile (fun c => !decide (c = ' '))
  let rest := (line.dropWhile (fun c => !decide (c = ' '))).filter (fun c => !decide (c = ' '))
  assembleParts m (if rest = [] then [] else splitOperands rest [])

end Sys2Proof.Machine
end

