-- ==== Sys2Proof/Tests/Slice0.lean ====
section
/-! SUPPORT. Tests: the well-formedness smoke test, the decoding of words written out from the encoding tables,
one-step tests with expected values from 95_test_vectors.md, and for every obligation with hypotheses one
witness that meets them, at the boundary values of its clauses. -/

namespace Sys2Proof.Tests

open Sys2Proof Sys2Proof.Machine

/-! ## Helpers -/

/-- The smallest capacity, FRAME_CAP = 40. -/
def cap40 : Config := { Config.default with capOver40 := 0 }

/-- Reset with FRAME_CAP = 40. -/
def reset40 : State := State.resetWith cap40 [] []

/-- A predicate on the next state; false on a fault or a refusal. -/
def after (r : Result) (p : State → Bool) : Bool :=
  match r with
  | .next t => p t
  | .fault _ => false
  | .refused _ => false

/-- `F_MIN0`, `F_SET` and `F_RPT` of 95_test_vectors.md, as cells. -/
def fMin0 : Memory := [(0, 0xAA), (1, 0x0C), (10, 0xC0)]
def fSet : Memory :=
  [(0, 0xAA), (1, 0x23), (9, 0x02), (10, 0x40), (32, 0x5A), (34, 0x38), (35, 0x09)]
def fRpt : Memory :=
  [(0, 0xAA), (1, 0x23), (10, 0xC0), (11, 0x01), (32, 0x5A), (34, 0xE3), (35, 0xDF)]

/-- A state with a given staging frame. -/
def withStg (s : State) (m : Memory) (n : BitVec 9) : State := { s with stg := { s.stg with buf := m, len := n } }

/-- A state with a given receiver. -/
def withRx (s : State) (p : RxPhase) (m : Memory) (n : BitVec 9) (r : BitVec 8) : State :=
  { s with rx := { phase := p, buf := m, len := n, rem := r } }

/-- A state whose queue holds `F_SET` at a head with a given age, and up to a given tail. -/
def withHead (s : State) (head tail : BitVec 4) (age : Fin 11) : State :=
  { s with q := { s.q.setSlot head { buf := fSet, len := 36, tag := 0, age := age } with
    head := head, tail := tail, empty := false } }

/-- A state in the middle of a frame, with a staging frame, one queue entry and a word offered. -/
def busy : State :=
  { withStg (withRx (withHead reset40 0 0 4) .payload [(0, 0xAA), (1, 0x23), (2, 0x11)] 3 33) fSet 36 with
    inputs := [Instant.hostWord 0x17000000#32] }

/-- One operation of every constructor. -/
def oneOfEach : List Instr :=
  [.nop, .rxb 0x11, .tick, .sclr, .spush 0x07, .swr 0 0xAA, .stag 0x53, .scrc, .schk, .sver, .enq,
   .rdreg .qCtrl, .rdstg 39, .rdrx 0, .rdslot 32 0, .clrst 0x3F]

/-! ## Well-formedness: R37 case 8 is its only check -/

theorem test_wf_refuses_offset_beyond_cap :
    Instr.wf 40 (.rdstg 40) = false ∧ Instr.wf 40 (.rdrx 40) = false ∧ Instr.wf 40 (.rdslot 40 0) = false := by
  decide

theorem test_wf_accepts_offset_below_cap :
    Instr.wf 40 (.rdstg 39) = true ∧ Instr.wf 40 (.rdrx 39) = true ∧ Instr.wf 40 (.rdslot 39 15) = true := by
  decide

/-! ## Decoding: words from R33 and R35, the fields OP, R, A, D written out in bits -/

theorem test_decode_nop : decode 256 0b00000000_00000000_00000000_00000000#32 = .ok .nop := by decide
theorem test_decode_rxb : decode 256 0b00000001_00000000_00000000_10101010#32 = .ok (.rxb 0xAA) := by decide
theorem test_decode_tick : decode 256 0b00000010_00000000_00000000_00000000#32 = .ok .tick := by decide
theorem test_decode_sclr : decode 256 0b00010000_00000000_00000000_00000000#32 = .ok .sclr := by decide
theorem test_decode_spush : decode 256 0b00010001_00000000_00000000_00000101#32 = .ok (.spush 5) := by decide
theorem test_decode_swr : decode 256 0b00010010_00000000_00001010_01010101#32 = .ok (.swr 10 0x55) := by decide
theorem test_decode_stag : decode 256 0b00010011_00000000_00000000_01010011#32 = .ok (.stag 0x53) := by decide
theorem test_decode_scrc : decode 256 0b00010100_00000000_00000000_00000000#32 = .ok .scrc := by decide
theorem test_decode_schk : decode 256 0b00010101_00000000_00000000_00000000#32 = .ok .schk := by decide
theorem test_decode_sver : decode 256 0b00010110_00000000_00000000_00000000#32 = .ok .sver := by decide
theorem test_decode_enq : decode 256 0b00010111_00000000_00000000_00000000#32 = .ok .enq := by decide
theorem test_decode_rdreg :
    decode 256 0b00100000_00000000_00110001_00000000#32 = .ok (.rdreg (.slotTag 1)) := by decide
theorem test_decode_rdstg : decode 256 0b00100001_00000000_11111111_00000000#32 = .ok (.rdstg 255) := by decide
theorem test_decode_rdrx : decode 256 0b00100010_00000000_00000010_00000000#32 = .ok (.rdrx 2) := by decide
theorem test_decode_rdslot :
    decode 256 0b00100011_00000000_00100000_00000010#32 = .ok (.rdslot 32 2) := by decide
theorem test_decode_clrst : decode 256 0b00110000_00000000_00000000_00111111#32 = .ok (.clrst 63) := by decide

/-- The word of a table row runs as the first operation after reset. -/
theorem test_fetch_word : step (State.reset.withFetchWord 32 0x14000000) = exec .scrc State.reset := by rfl

/-- R40: a number in hexadecimal, and a tag as a quoted character. -/
theorem test_assemble :
    assembleLine ['S', 'W', 'R', ' ', '1', ',', ' ', '0', 'x', '0', '2'] = some [.swr 1 2] ∧
    assembleLine ['S', 'T', 'A', 'G', ' ', Char.ofNat 39, 'S', Char.ofNat 39] = some [.stag 0x53] ∧
    assembleLine ['S', 'E', 'N', 'D'] = some [.scrc, .schk, .enq] := by decide

/-! ## One step of each operation -/

/-- V-ACC-3. -/
theorem test_nop : after (exec .nop State.reset) (fun t => t.status = 0 ∧ t.out = []) = true := by decide

/-- V-RX-3, its second byte: AA is a length byte, L = 170. -/
theorem test_rxb_length_byte :
    after (exec (.rxb 0xAA) (withRx State.reset .len [(0, 0xAA)] 1 0))
      (fun t => t.rx.phase = .payload ∧ t.rx.len = 2 ∧ t.rx.rem = 169) = true := by decide

/-- V-Q-6, its last byte: the report is delivered, then acknowledges the head. -/
theorem test_rxb_last_byte_acknowledges :
    after (exec (.rxb 0xDF) (withRx (withHead State.reset 0 0 1) .payload fRpt.dropLast 35 1))
      (fun t => t.out = [.frame 36 ([0xAA, 0x23] ++ List.replicate 8 0 ++ [0xC0, 0x01] ++
          List.replicate 20 0 ++ [0x5A, 0x00, 0xE3, 0xDF]) true, .ack 0] ∧
        t.q.empty = true ∧ t.rx.phase = .idle) = true := by decide +kernel

/-- V-POLL-4: the head is slot 3 at age 4. -/
theorem test_tick_transmits :
    after (exec .tick (withHead State.reset 3 3 4))
      (fun t => t.out = [.tx 3 36 ([0xAA, 0x23] ++ List.replicate 7 0 ++ [0x02, 0x40] ++
          List.replicate 21 0 ++ [0x5A, 0x00, 0x38, 0x09])] ∧ (t.q.slot 3).age = 5) = true := by decide

/-- V-POLL-6: a drop at age 10, and no transmission in this step. -/
theorem test_tick_drops :
    after (exec .tick (withHead State.reset 0 1 10))
      (fun t => t.out = [.drop 0] ∧ t.q.head = 1 ∧ t.q.empty = false) = true := by decide

/-- V-CODEC-5l. -/
theorem test_sclr :
    after (exec .sclr (withStg State.reset [(0, 0xAA), (1, 3), (2, 5)] 3))
      (fun t => t.stg.len = 0 ∧ t.stg.buf.read 1 = 0) = true := by decide

/-- V-CODEC-5i: a full frame. -/
theorem test_spush_full :
    after (exec (.spush 1) (withStg reset40 [(0, 0xAA)] 40))
      (fun t => t.status = 0x20 ∧ t.out = [.err .stgErr] ∧ t.stg.len = 40) = true := by decide

/-- V-CODEC-5g and V-CODEC-5h. -/
theorem test_swr :
    after (exec (.swr 1 2) (withStg State.reset [(0, 0xAA)] 3)) (fun t => t.stg.buf.read 1 = 2) = true ∧
    after (exec (.swr 3 1) (withStg State.reset [(0, 0xAA)] 3))
      (fun t => t.status = 0x20 ∧ t.stg.buf.read 3 = 0) = true := by decide

/-- V-CODEC-5k. -/
theorem test_stag : after (exec (.stag 0x53) State.reset) (fun t => t.stg.tag = 0x53) = true := by decide

/-- V-CODEC-5e. -/
theorem test_scrc :
    after (exec .scrc (withStg State.reset fMin0 11))
      (fun t => t.stg.buf.read 11 = 0xCA ∧ t.stg.len = 12) = true := by decide

/-- V-CODEC-5a and V-CODEC-5f. -/
theorem test_schk :
    after (exec .schk (withStg State.reset [(0, 0xAA), (1, 3), (2, 5)] 3))
      (fun t => t.stg.buf.read 3 = 0xF8) = true ∧
    after (exec .schk (withStg State.reset [(0, 0xAA), (1, 1), (2, 0xFF)] 3))
      (fun t => t.stg.buf.read 3 = 0 ∧ t.stg.len = 4) = true := by decide

/-- V-CODEC-6, V-CODEC-7 and V-CODEC-8. -/
theorem test_sver :
    after (exec .sver (withStg State.reset fSet 36)) (fun t => t.verify = 0xF) = true ∧
    after (exec .sver State.reset) (fun t => t.verify = 7) = true ∧
    after (exec .sver (withStg State.reset (fSet.write 11 1) 36)) (fun t => t.verify = 9) = true := by decide +kernel

/-- V-Q-3. -/
theorem test_enq_not_a_frame :
    after (exec .enq (withStg State.reset [(0, 0x55), (1, 1)] 2))
      (fun t => t.out = [.err .stgErr] ∧ t.q.empty = true) = true := by decide

/-- V-Q-14, its second ENQ: slot 1. -/
theorem test_enq_second :
    after (exec .enq (withStg (withHead State.reset 0 0 0) [(0, 0xAA), (1, 3), (2, 5), (3, 0xF8)] 4))
      (fun t => t.q.tail = 1 ∧ (t.q.slot 1).len = 4 ∧ (t.q.slot 1).buf.read 3 = 0xF8) = true := by decide

/-- V-ACC-1: QCTRL after reset. -/
theorem test_rdreg : after (exec (.rdreg .qCtrl) State.reset) (fun t => t.out = [.resp 0x8000]) = true := by
  decide

/-- V-ACC-2, a legal near-miss. -/
theorem test_rdstg : after (exec (.rdstg 39) reset40) (fun t => t.out = [.resp 0]) = true := by decide

/-- V-RX-14. -/
theorem test_rdrx : after (exec (.rdrx 2) busy) (fun t => t.out = [.resp 0x11]) = true := by decide

/-- V-Q-1. -/
theorem test_rdslot : after (exec (.rdslot 32 0) busy) (fun t => t.out = [.resp 0x5A]) = true := by decide

/-- V-ACC-4: 09 becomes 08. -/
theorem test_clrst :
    after (exec (.clrst 1) { State.reset with status := 9 }) (fun t => t.status = 8) = true := by decide

/-! ## Witnesses: the hypotheses of each obligation, met at boundary values -/

theorem test_witness_DecodeEncodeAgree :
    Instr.wf 40 (.rdslot 39 15) = true ∧ Instr.wf 256 (.rdrx 255) = true ∧
    oneOfEach.all (Instr.wf 40) = true := by decide

theorem test_witness_DecodedWordReencodes :
    decode 40 0x2300270F#32 = .ok (.rdslot 39 15) ∧ decode 256 0x20003F00#32 = .ok (.rdreg (.slotTag 15)) := by
  decide

/-- V-ACC-2: a word of each of the eight cases at FRAME_CAP = 40, and near-misses that are legal. -/
theorem test_witness_IllegalWordOnlyRecordsIllCmd :
    wordIllegal 40 0x03000000#32 ∧ wordIllegal 40 0x00010000#32 ∧ wordIllegal 40 0x02000100#32 ∧
    wordIllegal 40 0x00000001#32 ∧ wordIllegal 40 0x23000010#32 ∧ wordIllegal 40 0x30000040#32 ∧
    wordIllegal 40 0x20000B00#32 ∧ wordIllegal 40 0x20004000#32 ∧ wordIllegal 40 0x21002800#32 ∧
    ¬ wordIllegal 40 0x21002700#32 ∧ ¬ wordIllegal 40 0x2300000F#32 ∧ ¬ wordIllegal 40 0x3000003F#32 ∧
    ¬ wordIllegal 40 0x20000A00#32 ∧ ¬ wordIllegal 40 0x20001000#32 ∧ ¬ wordIllegal 40 0x20003F00#32 := by
  and_intros <;> (unfold wordIllegal inRegisterMap; decide +kernel)

theorem test_witness_StepRunsDecodedWord :
    (State.reset.withFetchWord 32 0x14000000).inputs = [Instant.hostWord 0x14000000#32] ∧
    (Instant.hostWord 0x14000000#32).reset = false ∧
    (Instant.hostWord 0x14000000#32).take =
      some (0x14000000#32, { reset := false, rx := none, host := none, tick := false }) ∧
    decode State.reset.cfg.frameCap 0x14000000#32 = .ok .scrc := by decide

/-- Each port: the byte with the later ports offering too, the word alone, the pulse alone. -/
theorem test_witness_PortsTakenRxThenHostThenTick :
    ({ busy with inputs := [{ Instant.hostWord 0x17000000#32 with rx := some 0xAA, tick := true }] } : State).inputs =
      { reset := false, rx := some 0xAA, host := some 0x17000000#32, tick := true } :: [] ∧
    busy.inputs = { reset := false, rx := none, host := some 0x17000000#32, tick := false } :: [] ∧
    ({ busy with inputs := [Instant.tickPulse] } : State).inputs =
      { reset := false, rx := none, host := none, tick := true } :: [] := by decide

theorem test_witness_NoEventKeepsState :
    State.reset.inputs = [] ∧
    ({ busy with inputs := [{ reset := false, rx := none, host := none, tick := false }] } : State).inputs =
      { reset := false, rx := none, host := none, tick := false } :: [] := by decide

/-- The reset input together with a received byte. -/
theorem test_witness_ResetInputRestoresResetValues :
    ({ busy with inputs := [{ Instant.rxByte 0xAA with reset := true }] } : State).inputs =
      { reset := true, rx := some 0xAA, host := none, tick := false } :: [] := by decide

theorem busy_rx_inv : busy.rx.Inv busy.cfg.frameCap := by
  refine ⟨by decide, ?_⟩
  show 2 ≤ busy.rx.len.toNat ∧ _
  exact ⟨by decide, by decide, by decide, by decide, Memory.zeroFrom_of_cells _ _ (by decide)⟩

theorem busy_occupied : ∀ i : BitVec 4, busy.q.occupied i ↔ i = 0 := by
  unfold Queue.occupied
  decide

theorem busy_q_inv : busy.q.Inv busy.cfg.frameCap := by
  refine ⟨by decide, fun i => ⟨fun h => ?_, fun h => ?_⟩⟩
  · obtain rfl := (busy_occupied i).1 h
    exact ⟨⟨by decide, by decide, by decide, by decide, Memory.zeroFrom_of_cells _ _ (by decide)⟩, by decide⟩
  · rw [busy_occupied] at h
    revert i
    decide

/-- A state that is neither reset nor idle meets the invariants, and steps. -/
theorem test_witness_StepKeepsInv : busy.Inv ∧ ∃ t, step busy = .next t :=
  ⟨⟨busy_rx_inv, ⟨by decide, by decide, Memory.zeroFrom_of_cells _ _ (by decide)⟩, busy_q_inv⟩, _, rfl⟩

theorem test_witness_StepNeverStops : busy.Inv := test_witness_StepKeepsInv.1

theorem test_witness_StepKeepsBuffersCanonical : busy.canonical ∧ ∃ t, step busy = .next t := by
  refine ⟨?_, _, rfl⟩
  unfold State.canonical
  decide

theorem test_witness_StepKeepsParametersAndAppendsOutput : ∃ t, step busy = .next t := ⟨_, rfl⟩

/-- Every operation answers a next state at `busy`, so each clause is met by the others. -/
theorem test_witness_EachUnitWritesOnlyItsOwnState :
    oneOfEach.all (fun i => after (exec i busy) (fun _ => true)) = true := by decide

/-- The highest and the lowest bit, with an operation that sets one of its own. -/
theorem test_witness_StatusBitsAreSticky :
    after (exec .enq { State.reset with status := 0x21 }) (fun _ => true) = true ∧
    (0x21#6).getLsbD 5 = true ∧ (0x21#6).getLsbD 0 = true := by decide

/-- Both clauses: ENQ at reset sets bit 5, newly, with its event. -/
theorem test_witness_ErrEventsMatchStatusBits :
    after (exec .enq State.reset) (fun t => t.out = State.reset.out ++ [.err .stgErr] ∧
      t.status.getLsbD ErrCode.stgErr.code = true) = true ∧
    State.reset.status.getLsbD ErrCode.stgErr.code = false := by decide

theorem test_witness_StatusAndVerifySteerNothing :
    oneOfEach.all (fun i => decide (i ≠ .rdreg .status ∧ i ≠ .rdreg .verify)) = true := by decide

/-- An event of every kind, from the operation that emits it. -/
theorem test_witness_EventsComeFromTheirOperations :
    after (exec .tick busy) (fun t => t.out.length = 1) = true ∧
    after (exec .tick (withHead State.reset 0 0 10)) (fun t => t.out = [.drop 0]) = true ∧
    after (exec .tick State.reset) (fun t => t.out = [.getReq]) = true ∧
    after (exec (.rxb 0xDF) (withRx (withHead State.reset 0 0 1) .payload fRpt.dropLast 35 1))
      (fun t => t.out.length = 2) = true ∧
    after (exec (.rdrx 0) busy) (fun t => t.out = [.resp 0xAA]) = true ∧
    after (exec .enq State.reset) (fun t => t.out = [.err .stgErr]) = true := by decide +kernel

/-- Both clauses meet at an empty range. -/
theorem test_witness_CrcFollowsTheTable : (10 : Nat) ≤ 10 ∧ (9 : Nat) ≤ 10 := by decide

/-- V-CODEC-1's C0 with its CRC CA, and an empty range with CRC_INIT. -/
theorem test_witness_CrcOfDataAndItsCrcIsZero :
    Memory.read (fMin0 ++ [(11, 0xCA)]) 11 = crc8 Config.default (fMin0 ++ [(11, 0xCA)]) 10 11 ∧
    Memory.read fMin0 9 = crc8 Config.default fMin0 9 9 := by decide

theorem test_witness_ChecksumClosesTheSum : (1 : Nat) ≤ 1 ∧ (0 : Nat) ≤ 1 := by decide

/-- Only 0x00 meets the second clause's hypothesis. -/
theorem test_witness_DefaultTableIsMaxim : Config.default.crcEntry 0 = 0 := by decide

/-- A full frame, and the last free place. -/
theorem test_witness_SpushAppendsByte :
    (withStg reset40 [(0, 0xAA)] 40).stg.buf.wf = true ∧
    (withStg reset40 [(0, 0xAA)] 40).stg.len.toNat = reset40.cfg.frameCap ∧
    (withStg reset40 [(0, 0xAA)] 39).stg.len.toNat < reset40.cfg.frameCap := by decide

/-- Address 40 on a full frame of 40, and its last byte. -/
theorem test_witness_SwrOverwritesByte :
    (withStg reset40 [(0, 0xAA)] 40).stg.buf.wf = true ∧
    (withStg reset40 [(0, 0xAA)] 40).stg.len.toNat ≤ reset40.cfg.frameCap ∧
    (withStg reset40 [(0, 0xAA)] 40).stg.len.toNat ≤ (40#8).toNat ∧
    (39#8).toNat < (withStg reset40 [(0, 0xAA)] 40).stg.len.toNat := by decide

/-- A full frame; an empty range at length 10; a second SCRC into the last place. -/
theorem test_witness_ScrcAppendsCrc :
    (withStg reset40 fMin0 40).stg.buf.wf = true ∧
    (withStg reset40 fMin0 40).stg.len.toNat = reset40.cfg.frameCap ∧
    (withStg reset40 fMin0 10).stg.len.toNat ≤ 10 ∧ 10 ≤ (withStg reset40 fMin0 10).stg.len.toNat ∧
    (withStg reset40 fMin0 38).stg.len.toNat + 1 < reset40.cfg.frameCap := by decide

/-- A full frame; an empty range at length 1; the last free place. -/
theorem test_witness_SchkAppendsChecksum :
    (withStg reset40 fMin0 40).stg.buf.wf = true ∧
    (withStg reset40 fMin0 40).stg.len.toNat = reset40.cfg.frameCap ∧
    (withStg reset40 [(0, 0xAA)] 1).stg.len.toNat ≤ 1 ∧
    (withStg reset40 fMin0 39).stg.len.toNat < reset40.cfg.frameCap := by decide

theorem test_witness_SverWritesVerify :
    (withStg reset40 fMin0 40).stg.len.toNat ≤ reset40.cfg.frameCap ∧
    State.reset.stg.len.toNat ≤ State.reset.cfg.frameCap := by decide

/-- The shortest and the longest frame it covers at FRAME_CAP = 40. -/
theorem test_witness_SealThenVerifySucceeds :
    [10#9, 38#9].all (fun n => (withStg reset40 fMin0 n).stg.buf.wf ∧
      10 ≤ (withStg reset40 fMin0 n).stg.len.toNat ∧
      (withStg reset40 fMin0 n).stg.len.toNat + 2 ≤ (withStg reset40 fMin0 n).cfg.frameCap) = true := by decide

theorem test_witness_RxbInIdle : State.reset.rx.phase = .idle ∧ (0x55#8 : Byte) ≠ 0xAA#8 := by decide

/-- LEN at FRAME_CAP = 40: the bytes 0, 1, 2, 39 and 40 meet one clause each but 2 and 39, which share one. -/
theorem test_witness_RxbInLen :
    (withRx reset40 .len [(0, 0xAA)] 1 0).rx.phase = .len ∧
    (withRx reset40 .len [(0, 0xAA)] 1 0).rx.buf.wf = true ∧
    reset40.cfg.frameCap < (40#8 : Byte).toNat + 1 ∧
    2 ≤ (2#8 : Byte).toNat ∧ (39#8 : Byte).toNat + 1 ≤ reset40.cfg.frameCap := by decide

/-- The last byte of the buffer, with one and with two bytes to come. -/
theorem test_witness_RxbInPayload :
    [1#8, 2#8].all (fun r => (withRx reset40 .payload fMin0 39 r).rx.phase = .payload ∧
      (withRx reset40 .payload fMin0 39 r).rx.buf.wf ∧
      (withRx reset40 .payload fMin0 39 r).rx.len.toNat < reset40.cfg.frameCap ∧
      (withRx reset40 .payload fMin0 39 r).rx.rem ≠ 0) = true := by decide

theorem test_witness_RxbInDiscard :
    [1#8, 254#8].all (fun r => (withRx reset40 .discard [] 0 r).rx.phase = .discard ∧
      (withRx reset40 .discard [] 0 r).rx.rem ≠ 0) = true := by decide

/-- `F_MIN` with one byte replaced; each row meets the hypotheses of one clause. -/
def corrupted (a : Nat) (v : Byte) : Memory := Memory.write (fMin0 ++ [(11, 0xCA), (12, 0x6A)]) a v

/-- A frame whose last byte has been stored, with `F_SET` at the head of the queue. -/
def completed (m : Memory) (n : BitVec 9) : State := withRx (withHead State.reset 0 0 1) .payload m n 0

/-- Whether such a frame has 13 bytes or more, a good CRC and a good checksum. -/
def checks (s : State) : Bool × Bool × Bool :=
  (decide (13 ≤ s.rx.len.toNat), decide (crc8 s.cfg s.rx.buf 10 (s.rx.len.toNat - 1) = 0),
    decide (byteSum s.rx.buf 1 s.rx.len.toNat % 256 = 0))

/-- `F_SHORT`'s 12 bytes; of 13, the CRC alone bad, the checksum alone bad, both bad, none. -/
theorem test_witness_CompletedFrameIsValidated :
    (completed [(0, 0xAA), (1, 0x0B), (11, 0xF5)] 12).rx.len.toNat < 13 ∧
    checks (completed (Memory.write (corrupted 11 0xCB) 12 0x69) 13) = (true, false, true) ∧
    checks (completed (corrupted 12 0x6B) 13) = (true, true, false) ∧
    checks (completed (corrupted 10 0xC1) 13) = (true, false, false) ∧
    checks (completed (corrupted 0 0xAA) 13) = (true, true, true) := by decide +kernel

/-- A frame with C1 at 10, which is no report; `F_MIN`, too short to acknowledge; `F_RPT`, which does. -/
theorem test_witness_ValidFrameIsHandedOn :
    checks (completed [(0, 0xAA), (1, 0x0C), (10, 0xC1), (11, 0x94), (12, 0x9F)] 13) = (true, true, true) ∧
    checks (completed (corrupted 0 0xAA) 13) = (true, true, true) ∧
    checks (completed fRpt 36) = (true, true, true) ∧
    (completed (corrupted 0 0xAA) 13).rx.buf.read 10 = 0xC0#8 ∧ (completed fRpt 36).rx.buf.read 10 = 0xC0#8 ∧
    (completed fRpt 36).q.empty = false ∧
    ((completed fRpt 36).q.slot 0).buf.read 32 = (completed fRpt 36).rx.buf.read 32 := by decide +kernel

/-- V-RX-15 to V-RX-17: L = 0x50 at FRAME_CAP = 40, no byte skipped yet and all 79. -/
theorem test_witness_OverlongFrameIsSkippedExactly :
    (withRx reset40 .len [(0, 0xAA)] 1 0).rx.phase = .len ∧ reset40.cfg.frameCap < (0x50#8 : Byte).toNat + 1 ∧
    ([] : List Byte).length ≤ (0x50#8 : Byte).toNat - 1 ∧
    (List.replicate 79 (0xAA : Byte)).length ≤ (0x50#8 : Byte).toNat - 1 := by decide

/-- The shortest and the longest frame at FRAME_CAP = 40. -/
theorem test_witness_FrameIsReassembledByteByByte :
    reset40.rx.phase = .idle ∧
    [2#8, 39#8].all (fun d => 2 ≤ d.toNat ∧ d.toNat + 1 ≤ reset40.cfg.frameCap ∧
      (List.replicate (d.toNat - 1) (0xAA : Byte)).length = d.toNat - 1) = true := by decide

/-- The frame's premises of `ValidFrameTravelsFromWireToOutput`, for a length byte and the bytes after it. -/
def goodFrame (d : Byte) (bs : List Byte) : Bool :=
  let f := 0xAA#8 :: d :: bs
  decide (12 ≤ d.toNat) && decide (d.toNat + 1 ≤ reset40.cfg.frameCap) && decide (bs.length = d.toNat - 1) &&
  decide (((f.drop 10).dropLast).foldl (fun r x => cap40.crcEntry (r ^^^ x)) cap40.crcInit = 0) &&
  decide (((f.drop 1).map BitVec.toNat).sum % 256 = 0)

/-- A frame that is no report, `F_MIN`, and `F_RPT` with the head's byte 32. -/
theorem test_witness_ValidFrameTravelsFromWireToOutput :
    reset40.rx.phase = .idle ∧
    goodFrame 0x0C (List.replicate 8 0 ++ [0xC1, 0x94, 0x9F]) = true ∧
    goodFrame 0x0C (List.replicate 8 0 ++ [0xC0, 0xCA, 0x6A]) = true ∧
    goodFrame 0x23 (List.replicate 8 0 ++ [0xC0, 0x01] ++ List.replicate 20 0 ++ [0x5A, 0, 0xE3, 0xDF]) = true ∧
    (withHead reset40 0 0 0).q.empty = false ∧
    ((withHead reset40 0 0 0).q.slot 0).buf.read 32 =
      (0xAA#8 :: 0x23#8 :: (List.replicate 8 0 ++ [0xC0, 0x01] ++ List.replicate 20 0 ++
        [0x5A, 0, 0xE3, 0xDF])).getD 32 0 := by decide +kernel

/-- Valid reports of 33 bytes, whose byte 32 is the checksum 5A, and of 32 bytes, which have none. -/
def report33 : List Byte := [0xB5, 0xC0] ++ List.replicate 20 0 ++ [0x11, 0x5A]
def report32 : List Byte := [0x37, 0xC0] ++ List.replicate 19 0 ++ [0x90, 0x5A]

/-- A state whose queue holds a short frame, which reads 0x00 at offset 32. -/
def shortHead : State :=
  { reset40 with q := { reset40.q.setSlot 0 { buf := fMin0, len := 11, tag := 0, age := 0 } with empty := false } }

/-- At 33 bytes the bytes at offset 32 are compared and equal; at 32 both read 0x00 and the length alone decides. -/
theorem test_witness_ValidFrameTravelsFromWireToOutput_length :
    goodFrame 0x20 (List.replicate 7 0 ++ report33) = true ∧ 33 ≤ (0x20#8 : Byte).toNat + 1 ∧
    ((withHead reset40 0 0 0).q.slot 0).buf.read 32 =
      (0xAA#8 :: 0x20#8 :: (List.replicate 7 0 ++ report33)).getD 32 0 ∧
    goodFrame 0x1F (List.replicate 7 0 ++ report32) = true ∧ ¬ 33 ≤ (0x1F#8 : Byte).toNat + 1 ∧
    shortHead.rx.phase = .idle ∧ shortHead.cfg = reset40.cfg ∧ shortHead.q.empty = false ∧
    (shortHead.q.slot 0).buf.read 32 =
      (0xAA#8 :: 0x1F#8 :: (List.replicate 7 0 ++ report32)).getD 32 0 := by decide +kernel

/-- No frame, an empty one and a wrong marker; into the empty queue; the full queue; the last free slot. -/
theorem test_witness_EnqAppendsCopyOfStagingFrame :
    State.reset.stg.len = 0 ∧ (withStg State.reset [(0, 0x55)] 1).stg.buf.read 0 ≠ 0xAA#8 ∧
    (withStg State.reset [(0, 0xAA)] 1).stg.len ≠ 0 ∧
    (withStg State.reset [(0, 0xAA)] 1).stg.buf.read 0 = 0xAA#8 ∧
    State.reset.q.empty = true ∧ (withHead State.reset 0 15 0).q.empty = false ∧
    (withHead State.reset 0 15 0).q.tail + 1 = (withHead State.reset 0 15 0).q.head ∧
    (withHead State.reset 0 14 0).q.tail + 1 ≠ (withHead State.reset 0 14 0).q.head := by decide

/-- The only entry, and a head at slot 15 that wraps. -/
theorem test_witness_RetireHeadRemovesTheHead :
    (withHead State.reset 15 15 0).q.empty = false ∧
    (withHead State.reset 15 15 0).q.head = (withHead State.reset 15 15 0).q.tail ∧
    (withHead State.reset 15 0 0).q.empty = false ∧
    (withHead State.reset 15 0 0).q.head ≠ (withHead State.reset 15 0 0).q.tail := by decide

/-- A hit at the shortest length that holds offset 32, and a miss by one byte less. -/
theorem test_witness_AckMatchRetiresHeadOnEqualToken :
    (withHead State.reset 0 0 0).q.empty = false ∧ 32 < 33 ∧ ¬ 32 < 32 ∧
    ((withHead State.reset 0 0 0).q.slot 0).buf.read 32 = fRpt.read 32 := by decide

/-- Empty, and full. -/
theorem test_witness_QueueIsFullExactlyAtSixteen :
    State.reset.q.empty = true ∧ (withHead State.reset 0 15 0).q.empty = false ∧
    (withHead State.reset 0 15 0).q.tail + 1 = (withHead State.reset 0 15 0).q.head := by decide

/-- A frame of one byte into a queue of fifteen entries, and a queue to retire from. -/
theorem test_witness_EnqAppendsAndRetireDropsFirst :
    (withStg (withHead State.reset 0 14 0) [(0, 0xAA)] 1).stg.len ≠ 0 ∧
    (withStg (withHead State.reset 0 14 0) [(0, 0xAA)] 1).stg.buf.read 0 = 0xAA#8 ∧
    (withHead State.reset 0 14 0).q.count < 16 ∧
    after (exec .enq (withStg (withHead State.reset 0 14 0) [(0, 0xAA)] 1)) (fun _ => true) = true ∧
    (withHead State.reset 0 14 0).q.empty = false := by decide

theorem test_witness_QueueIsFifo : ∃ t, step busy = .next t := ⟨_, rfl⟩

theorem test_witness_TickOnEmptyQueueRequestsGet : State.reset.q.empty = true := by decide

/-- The empty queue; the ages that transmit, with the longest frame allowed; the drop; the waits beside them. -/
theorem test_witness_TickActsByHeadAge :
    State.reset.q.empty = true ∧
    ([0, 4, 7, 10, 1, 3, 5, 6, 8, 9] : List (Fin 11)).all (fun a => (withHead State.reset 3 3 a).q.empty = false ∧
      ((withHead State.reset 3 3 a).q.slot 3).age = a ∧
      ((withHead State.reset 3 3 a).q.slot 3).len.toNat ≤ State.reset.cfg.frameCap) = true := by decide

theorem test_witness_RetryScheduleOfTheHead :
    (withHead reset40 15 0 0).q.empty = false ∧ ((withHead reset40 15 0 0).q.slot 15).age = 0 ∧
    ((withHead reset40 15 0 0).q.slot 15).len.toNat ≤ reset40.cfg.frameCap := by decide

/-- The addresses where the map ends and begins again. -/
theorem test_witness_RdregReadsTheRegisterMap :
    [0x0B#8, 0x0F#8, 0x40#8, 0xFF#8].all (fun a =>
      (0x0B ≤ a.toNat ∧ a.toNat ≤ 0x0F) ∨ 0x40 ≤ a.toNat) = true := by decide

/-- The last offset and the first beyond, and the first byte behind the staging frame. -/
theorem test_witness_RdstgReadsStagingByte :
    (39#8 : Byte).toNat < reset40.cfg.frameCap ∧ reset40.cfg.frameCap ≤ (40#8 : Byte).toNat ∧
    busy.stg.Inv busy.cfg.frameCap ∧ busy.stg.len.toNat ≤ (36#8 : Byte).toNat ∧
    (36#8 : Byte).toNat < busy.cfg.frameCap :=
  ⟨by decide, by decide, test_witness_StepKeepsInv.1.2.1, by decide, by decide⟩

theorem test_witness_RdrxReadsReceiveByte :
    (39#8 : Byte).toNat < reset40.cfg.frameCap ∧ reset40.cfg.frameCap ≤ (40#8 : Byte).toNat := by decide

/-- The last offset and the first beyond, the first slot number beyond, and a slot beside the only entry. -/
theorem test_witness_RdslotReadsSlotByte :
    (39#8 : Byte).toNat < reset40.cfg.frameCap ∧ reset40.cfg.frameCap ≤ (40#8 : Byte).toNat ∧
    16 ≤ (16#8 : Byte).toNat ∧ busy.q.Inv busy.cfg.frameCap ∧ ¬ busy.q.occupied 1 ∧
    (39#8 : Byte).toNat < busy.cfg.frameCap :=
  ⟨by decide, by decide, by decide, busy_q_inv, by rw [busy_occupied]; decide, by decide⟩

/-- A NOP's opcode with one bit of D set. -/
theorem test_witness_NopChangesNothing : opField 0x00000001#32 = 0 ∧ 0x00000001#32 ≠ 0x00000000#32 := by decide

theorem test_witness_ClrstClearsMaskedBits : 64 ≤ (64#8 : Byte).toNat := by decide

end Sys2Proof.Tests
end

section
/-! The scope of a step (00_scope.md): no step writes the parameters (R6), and the output list only grows (R36). -/

namespace Sys2Proof.Machine

/-- `t` has the parameters of `s`, and its output continues that of `s`. -/
def State.ContinuedBy (s t : State) : Prop := t.cfg = s.cfg ∧ ∃ evs, t.out = s.out ++ evs

/-- Every update that names neither the parameters nor the output. -/
theorem State.continuedBy_of_same (s t : State) (hcfg : t.cfg = s.cfg) (hout : t.out = s.out) :
    s.ContinuedBy t :=
  ⟨hcfg, [], by rw [hout, List.append_nil]⟩

theorem State.continuedBy_emit (s : State) (e : Event) : s.ContinuedBy (s.emit e) := ⟨rfl, _, rfl⟩

theorem State.continuedBy_raiseError (s : State) (c : ErrCode) : s.ContinuedBy (s.raiseError c) :=
  ⟨rfl, _, rfl⟩

theorem State.continuedBy_readByte (s : State) (m : Memory) (a : Byte) :
    s.ContinuedBy (s.readByte m a) := by
  rcases readByte_cases s m a with ⟨-, h⟩ | ⟨-, h⟩ <;> rw [h]
  · exact s.continuedBy_emit _
  · exact s.continuedBy_raiseError .illCmd

/-- What `stgAppend_frame` and `execSwr_frame` leave possible for a staging write. -/
theorem State.continuedBy_stagingWrite (s t : State)
    (h : (∃ g, t = { s with stg := g }) ∨ t = s.raiseError .stgErr) : s.ContinuedBy t := by
  rcases h with ⟨g, rfl⟩ | rfl
  · exact s.continuedBy_of_same _ rfl rfl
  · exact s.continuedBy_raiseError _

theorem State.continuedBy_execEnq (s t : State) (h : execEnq s = .next t) : s.ContinuedBy t := by
  rcases execEnq_frame s t h with ⟨c, rfl⟩ | ⟨-, -, rfl⟩ | ⟨-, -, -, rfl⟩
  · exact s.continuedBy_raiseError c
  · exact s.continuedBy_of_same _ rfl rfl
  · exact s.continuedBy_of_same _ rfl rfl

/-- Every operation keeps the parameters and only appends to the output. -/
theorem State.continuedBy_exec (i : Instr) (s t : State) (h : exec i s = .next t) :
    s.ContinuedBy t := by
  cases i with
  | nop => cases h; exact s.continuedBy_of_same _ rfl rfl
  | rxb d =>
    obtain ⟨rx, st, evs, q, rfl, -⟩ := execRxb_frame s t d h
    exact ⟨rfl, evs, rfl⟩
  | tick =>
    obtain ⟨evs, q, rfl, -⟩ := execTick_frame s t h
    exact ⟨rfl, evs, rfl⟩
  | sclr => cases h; exact s.continuedBy_of_same _ rfl rfl
  | spush d => exact s.continuedBy_stagingWrite t (stgAppend_frame s t _ h)
  | swr a d => exact s.continuedBy_stagingWrite t (execSwr_frame s t a d h)
  | stag d => cases h; exact s.continuedBy_of_same _ rfl rfl
  | scrc => exact s.continuedBy_stagingWrite t (stgAppend_frame s t _ h)
  | schk => exact s.continuedBy_stagingWrite t (stgAppend_frame s t _ h)
  | sver =>
    obtain ⟨v, rfl⟩ := execSver_frame s t h
    exact s.continuedBy_of_same _ rfl rfl
  | enq => exact s.continuedBy_execEnq t h
  | rdreg r => cases h; exact s.continuedBy_emit _
  | rdstg a => cases h; exact s.continuedBy_readByte _ a
  | rdrx a => cases h; exact s.continuedBy_readByte _ a
  | rdslot a k => cases h; exact s.continuedBy_readByte _ a
  | clrst m => cases h; exact s.continuedBy_of_same _ rfl rfl

/-- Settles O14, by the five things a step can be (`step_cases`). -/
theorem stepKeepsParametersAndAppendsOutput : Obligations.StepKeepsParametersAndAppendsOutput := by
  intro s t h
  change s.ContinuedBy t
  rcases step_cases s t h with rfl | ⟨_, rest, -, -, rfl⟩ | ⟨rest, rfl⟩ | ⟨rest, rfl⟩ | ⟨i, rest, hexec⟩
  · exact t.continuedBy_of_same t rfl rfl
  · exact s.continuedBy_of_same _ rfl rfl
  · exact s.continuedBy_of_same _ rfl rfl
  · exact ({ s with inputs := rest } : State).continuedBy_raiseError .illCmd
  · exact State.continuedBy_exec i { s with inputs := rest } t hexec

end Sys2Proof.Machine
end

section
/-! The rules of the state (10_state.md) at rest: the values and invariants of reset (R22), and the count (R18). -/

namespace Sys2Proof.Machine

/-- An empty receive buffer with nothing outstanding, in IDLE, meets R14. -/
theorem Receiver.inv_idle (cap : Nat) : Receiver.Inv cap { phase := .idle, buf := [], len := 0, rem := 0 } :=
  ⟨rfl, rfl, rfl, Memory.zeroFrom_nil 0⟩

theorem Staging.inv_cleared (cap : Nat) : Staging.Inv cap { buf := [], len := 0, tag := 0 } :=
  ⟨rfl, Nat.zero_le cap, Memory.zeroFrom_nil _⟩

/-- No slot of an empty queue is occupied, so R17 asks only for its indices and its zero slots. -/
theorem Queue.inv_of_empty (cap : Nat) (q : Queue) (hempty : q.empty = true) (hhead : q.head = 0)
    (htail : q.tail = 0) (hslots : ∀ i, q.slot i = Slot.zero) : q.Inv cap :=
  ⟨fun _ => ⟨hhead, htail⟩, fun i =>
    ⟨fun hocc => absurd (hempty.symm.trans hocc.1) (by decide), fun _ => hslots i⟩⟩

theorem State.inv_resetWith (c : Config) (ins : List Instant) (evs : List Event) :
    (State.resetWith c ins evs).Inv :=
  ⟨Receiver.inv_idle _, Staging.inv_cleared _,
    Queue.inv_of_empty _ _ rfl rfl rfl (State.resetWith_q_slot c ins evs)⟩

/-- Settles O10: reset is `State.resetWith` at the default parameters. -/
theorem resetMeetsInv : Obligations.ResetMeetsInv :=
  ⟨State.inv_resetWith _ _ _, State.inv_resetWith⟩

/-- Settles O8, each slot being the zero slot (`State.resetWith_q_slot`). -/
theorem resetValues : Obligations.ResetValues := by
  have hslot : ∀ k, State.reset.q.slot k = Slot.zero := State.resetWith_q_slot _ _ _
  refine ⟨rfl, fun _ => rfl, rfl, rfl, fun _ => rfl, rfl, rfl, fun k a => ?_, fun k => ?_,
    rfl, rfl, rfl, rfl, rfl⟩
  · rw [hslot, Slot.zero_buf, Memory.read_nil]
  · rw [hslot]
    exact ⟨rfl, rfl, rfl⟩

/-- The distance from one slot index to another, mod 16 (R18). -/
theorem slotDistance (head tail : BitVec 4) :
    (tail - head).toNat = (tail.toNat + 16 - head.toNat) % 16 := by
  have := head.isLt
  rw [BitVec.toNat_sub]
  omega

/-- The queue is full exactly when it holds sixteen entries (R18). -/
theorem Queue.count_eq_sixteen_iff (q : Queue) :
    q.count = 16 ↔ q.empty = false ∧ q.tail + 1 = q.head := by
  cases hempty : q.empty with
  | true => simp [q.count_of_empty hempty]
  | false =>
    rw [q.count_of_nonempty hempty]
    constructor
    · intro hcount
      exact ⟨rfl, by bv_omega⟩
    · rintro ⟨-, hfull⟩
      bv_omega

/-- Settles O44. -/
theorem queueIsFullExactlyAtSixteen : Obligations.QueueIsFullExactlyAtSixteen := by
  intro s
  refine ⟨s.q.count_of_empty, fun hempty => ?_, s.q.count_eq_sixteen_iff.symm, rfl, rfl⟩
  rw [s.q.count_of_nonempty hempty, slotDistance]

end Sys2Proof.Machine
end

section
/-! What RXB can do, said once with what it writes (R54 to R58), and that completion always ends in IDLE. -/

namespace Sys2Proof.Machine

/-- Completion leaves the receiver idle and empty, whether or not the frame is valid (R58). -/
theorem complete_rx (s : State) : s.complete.rx = { phase := .idle, buf := [], len := 0, rem := 0 } := by
  obtain ⟨_, _, _, h, -⟩ := complete_frame s
  rw [h]

/-- Everything one received byte `d` can do at `s`, by the receiver's phase (R54 to R57). -/
inductive RxbOutcome (s : State) (d : Byte) : State → Prop
  | ignored (hphase : s.rx.phase = .idle) (hd : d ≠ startMarker) : RxbOutcome s d s
  | started (hphase : s.rx.phase = .idle) (hd : d = startMarker) :
      RxbOutcome s d { s with rx := { phase := .len, buf := Memory.write [] 0 d, len := 1, rem := 0 } }
  | zeroLength (hphase : s.rx.phase = .len) (hd : d = 0) :
      RxbOutcome s d { s.raiseError .lenErr with rx := { phase := .idle, buf := [], len := 0, rem := 0 } }
  | overlong (hphase : s.rx.phase = .len) (hd : s.cfg.frameCap < d.toNat + 1) :
      RxbOutcome s d
        { s.raiseError .lenErr with rx := { phase := .discard, buf := [], len := 0, rem := d - 1 } }
  | lengthCompletes (hphase : s.rx.phase = .len) (hd : d = 1) :
      RxbOutcome s d ({ s with rx := { s.rx with buf := s.rx.buf.write 1 d, len := 2 } } : State).complete
  | lengthTaken (hphase : s.rx.phase = .len) (hd : 1 < d.toNat) (hcap : d.toNat + 1 ≤ s.cfg.frameCap) :
      RxbOutcome s d
        { s with rx := { phase := .payload, buf := s.rx.buf.write 1 d, len := 2, rem := d - 1 } }
  | payloadCompletes (hphase : s.rx.phase = .payload) (hrem : s.rx.rem - 1 = 0) :
      RxbOutcome s d ({ s with rx := { s.rx with
        buf := s.rx.buf.write s.rx.len.toNat d, len := s.rx.len + 1, rem := s.rx.rem - 1 } } : State).complete
  | payloadTaken (hphase : s.rx.phase = .payload) (hrem : 1 < s.rx.rem.toNat)
      (hlen : s.rx.len.toNat < s.cfg.frameCap) :
      RxbOutcome s d { s with rx := { s.rx with
        buf := s.rx.buf.write s.rx.len.toNat d, len := s.rx.len + 1, rem := s.rx.rem - 1 } }
  | skippedLast (hphase : s.rx.phase = .discard) :
      RxbOutcome s d { s with rx := { s.rx with phase := .idle, rem := 0 } }
  | skipped (hphase : s.rx.phase = .discard) (hrem : 1 < s.rx.rem.toNat) :
      RxbOutcome s d { s with rx := { s.rx with rem := s.rx.rem - 1 } }

theorem rxbIdle_outcome (s : State) (d : Byte) (hphase : s.rx.phase = .idle) :
    RxbOutcome s d (s.rxbIdle d) := by
  unfold State.rxbIdle
  split
  · next hd => exact .started hphase hd
  · next hd => exact .ignored hphase hd

theorem rxbLen_outcome (s : State) (d : Byte) (hphase : s.rx.phase = .len) :
    RxbOutcome s d (s.rxbLen d) := by
  unfold State.rxbLen
  split
  · next hzero => exact .zeroLength hphase hzero
  · next hzero =>
    split
    · next hlong => exact .overlong hphase hlong
    · next hlong =>
      dsimp only
      split
      · next hone => exact .lengthCompletes hphase hone
      · next hone => exact .lengthTaken hphase (by bv_omega) (by omega)

theorem rxbPayload_outcome (s t : State) (d : Byte) (hphase : s.rx.phase = .payload)
    (h : s.rxbPayload d = .next t) : RxbOutcome s d t := by
  unfold State.rxbPayload at h
  split at h
  · cases h
  · next hzero =>
    split at h
    · cases h
    · next hlen =>
      cases h
      dsimp only
      split
      · next hlast => exact .payloadCompletes hphase hlast
      · next hlast => exact .payloadTaken hphase (by bv_omega) (by omega)

theorem rxbDiscard_outcome (s t : State) (d : Byte) (hphase : s.rx.phase = .discard)
    (h : s.rxbDiscard = .next t) : RxbOutcome s d t := by
  unfold State.rxbDiscard at h
  split at h
  · cases h
  · next hzero =>
    cases h
    dsimp only
    split
    · next hlast =>
      rw [hlast]
      exact .skippedLast hphase
    · next hlast => exact .skipped hphase (by bv_omega)

/-- The inversion of RXB, one lemma per phase. -/
theorem execRxb_outcome (s t : State) (d : Byte) (h : execRxb d s = .next t) : RxbOutcome s d t := by
  unfold execRxb at h
  split at h
  · next hphase => cases h; exact rxbIdle_outcome s d hphase
  · next hphase => cases h; exact rxbLen_outcome s d hphase
  · next hphase => exact rxbPayload_outcome s t d hphase h
  · next hphase => exact rxbDiscard_outcome s t d hphase h

end Sys2Proof.Machine
end

section
/-! The invariants of R14, R15 and R17, kept by every step. -/

namespace Sys2Proof.Machine

/-- What R14 says in each phase, with the phase known. -/
theorem Receiver.inv_iff_of_idle (cap : Nat) (r : Receiver) (h : r.phase = .idle) :
    r.Inv cap ↔ r.buf.wf = true ∧ r.len = 0 ∧ r.rem = 0 ∧ r.buf.zeroFrom 0 := by
  simp [Receiver.Inv, h]

theorem Receiver.inv_iff_of_len (cap : Nat) (r : Receiver) (h : r.phase = .len) :
    r.Inv cap ↔ r.buf.wf = true ∧ r.len = 1 ∧ r.rem = 0 ∧ r.buf.read 0 = startMarker ∧
      r.buf.zeroFrom 1 := by
  simp [Receiver.Inv, h]

theorem Receiver.inv_iff_of_payload (cap : Nat) (r : Receiver) (h : r.phase = .payload) :
    r.Inv cap ↔ r.buf.wf = true ∧ 2 ≤ r.len.toNat ∧ 1 ≤ r.rem.toNat ∧
      r.len.toNat + r.rem.toNat ≤ cap ∧ r.buf.read 0 = startMarker ∧ r.buf.zeroFrom r.len.toNat := by
  simp [Receiver.Inv, h]

theorem Receiver.inv_iff_of_discard (cap : Nat) (r : Receiver) (h : r.phase = .discard) :
    r.Inv cap ↔ r.buf.wf = true ∧ r.len = 0 ∧ r.buf.zeroFrom 0 ∧ 1 ≤ r.rem.toNat ∧
      r.rem.toNat ≤ 254 := by
  simp [Receiver.Inv, h]

/-- A length of a frame of at most 256 bytes does not wrap when it grows by one. -/
theorem len_succ_toNat (n : BitVec 9) (h : n.toNat ≤ 256) : (n + 1).toNat = n.toNat + 1 := by
  bv_omega

/-- The receiver after a completed frame meets R14. -/
theorem complete_keeps_rx_inv (s : State) (cap : Nat) : s.complete.rx.Inv cap := by
  rw [complete_rx]
  exact Receiver.inv_idle cap

/-- RXB keeps R14, by what it can do in each phase. -/
theorem execRxb_keeps_rx_inv (s t : State) (d : Byte) (hinv : s.rx.Inv s.cfg.frameCap)
    (h : execRxb d s = .next t) : t.rx.Inv s.cfg.frameCap := by
  obtain ⟨hcapLow, hcapHigh⟩ := s.cfg.frameCap_bounds
  cases execRxb_outcome s t d h with
  | ignored => exact hinv
  | started _ hd =>
    rw [Receiver.inv_iff_of_len _ _ rfl]
    exact ⟨Memory.wf_write _ _ _ rfl, rfl, rfl, (Memory.read_write_same _ _ _ rfl).trans hd,
      Memory.zeroFrom_write_end _ _ _ (Memory.zeroFrom_nil 0)⟩
  | zeroLength => exact Receiver.inv_idle _
  | overlong _ hd =>
    rw [Receiver.inv_iff_of_discard _ _ rfl]
    have hrem : (d - 1).toNat = d.toNat - 1 := by bv_omega
    exact ⟨rfl, rfl, Memory.zeroFrom_nil 0, by dsimp only; omega, by dsimp only; omega⟩
  | lengthCompletes => exact complete_keeps_rx_inv _ _
  | lengthTaken hphase hd hcap =>
    obtain ⟨hwf, -, -, hmark, hzero⟩ := (Receiver.inv_iff_of_len _ _ hphase).1 hinv
    rw [Receiver.inv_iff_of_payload _ _ rfl]
    have hrem : (d - 1).toNat = d.toNat - 1 := by bv_omega
    have hlen : (2 : BitVec 9).toNat = 2 := rfl
    refine ⟨Memory.wf_write _ _ _ hwf, Nat.le_refl 2, by dsimp only; omega, by dsimp only; omega, ?_,
      Memory.zeroFrom_write_end _ _ _ hzero⟩
    exact (Memory.read_write_ne _ _ _ _ (by decide)).trans hmark
  | payloadCompletes => exact complete_keeps_rx_inv _ _
  | payloadTaken hphase hrem hlen =>
    obtain ⟨hwf, htwo, -, hsum, hmark, hzero⟩ := (Receiver.inv_iff_of_payload _ _ hphase).1 hinv
    have hrem' : (s.rx.rem - 1).toNat = s.rx.rem.toNat - 1 := by bv_omega
    have hlen' := len_succ_toNat s.rx.len (by omega)
    refine (Receiver.inv_iff_of_payload _ _ (by exact hphase)).2
      ⟨Memory.wf_write _ _ _ hwf, by dsimp only; omega, by dsimp only; omega, by dsimp only; omega, ?_, ?_⟩
    · exact (Memory.read_write_ne _ _ _ _ (by omega)).trans hmark
    · dsimp only
      rw [hlen']
      exact Memory.zeroFrom_write_end _ _ _ hzero
  | skippedLast hphase =>
    obtain ⟨hwf, hlen, hzero, -, -⟩ := (Receiver.inv_iff_of_discard _ _ hphase).1 hinv
    exact (Receiver.inv_iff_of_idle _ _ rfl).2 ⟨hwf, hlen, rfl, hzero⟩
  | skipped hphase hrem =>
    obtain ⟨hwf, hlen, hzero, -, hhigh⟩ := (Receiver.inv_iff_of_discard _ _ hphase).1 hinv
    have hrem' : (s.rx.rem - 1).toNat = s.rx.rem.toNat - 1 := by bv_omega
    exact (Receiver.inv_iff_of_discard _ _ (by exact hphase)).2
      ⟨hwf, hlen, hzero, by dsimp only; omega, by dsimp only; omega⟩

/-- A staging append keeps R15. -/
theorem stgAppend_keeps_stg_inv (s t : State) (d : Byte) (hinv : s.stg.Inv s.cfg.frameCap)
    (h : s.stgAppend d = .next t) : t.stg.Inv s.cfg.frameCap := by
  obtain ⟨hwf, hlen, hzero⟩ := hinv
  obtain ⟨-, hcapHigh⟩ := s.cfg.frameCap_bounds
  rcases stgAppend_cases s d with ⟨-, he⟩ | ⟨hroom, he⟩ | ⟨-, he⟩ <;> rw [he] at h <;> cases h
  · exact ⟨hwf, hlen, hzero⟩
  · have hlen' := len_succ_toNat s.stg.len (by omega)
    refine ⟨Memory.wf_write _ _ _ hwf, by dsimp only; omega, ?_⟩
    dsimp only
    rw [hlen']
    exact Memory.zeroFrom_write_end _ _ _ hzero

/-- SWR keeps R15: it writes below the length. -/
theorem execSwr_keeps_stg_inv (s t : State) (a d : Byte) (hinv : s.stg.Inv s.cfg.frameCap)
    (h : execSwr a d s = .next t) : t.stg.Inv s.cfg.frameCap := by
  obtain ⟨hwf, hlen, hzero⟩ := hinv
  unfold execSwr at h
  split at h
  · cases h
    exact ⟨hwf, hlen, hzero⟩
  · next hbelow =>
    split at h
    · cases h
    · cases h
      exact ⟨Memory.wf_write _ _ _ hwf, hlen, Memory.zeroFrom_write _ _ _ _ hzero (Nat.lt_of_not_le hbelow)⟩

/-- Retiring the head frees its slot and no other. -/
theorem Queue.occupied_retireHead (q : Queue) (i : BitVec 4) :
    q.retireHead.occupied i ↔ q.occupied i ∧ i ≠ q.head := by
  unfold Queue.occupied
  by_cases honly : q.head = q.tail
  · obtain ⟨-, -, hempty⟩ := q.retireHead_only honly
    rw [hempty, honly]
    constructor
    · rintro ⟨habsurd, -⟩
      cases habsurd
    · rintro ⟨⟨-, hle⟩, hne⟩
      exact absurd (by bv_omega) hne
  · obtain ⟨hhead, htail, hempty⟩ := q.retireHead_more honly
    rw [hhead, htail, hempty, and_assoc]
    refine and_congr_right fun _ => ?_
    constructor
    · intro hle
      exact ⟨by bv_omega, by bv_omega⟩
    · rintro ⟨hle, hne⟩
      bv_omega

/-- Retiring the head keeps R17, from a queue that has one. -/
theorem Queue.inv_retireHead (cap : Nat) (q : Queue) (hinv : q.Inv cap) (hsome : q.empty = false) :
    q.retireHead.Inv cap := by
  obtain ⟨-, hslots⟩ := hinv
  refine ⟨fun hempty => ?_, fun i => ?_⟩
  · by_cases honly : q.head = q.tail
    · obtain ⟨hhead, htail, -⟩ := q.retireHead_only honly
      exact ⟨hhead, htail⟩
    · obtain ⟨-, -, hkeep⟩ := q.retireHead_more honly
      rw [hkeep, hsome] at hempty
      cases hempty
  · rw [Queue.occupied_retireHead, Queue.slot_retireHead]
    obtain ⟨hocc, hfree⟩ := hslots i
    constructor
    · rintro ⟨hi, hne⟩
      rw [if_neg hne]
      obtain ⟨hframe, hage⟩ := hocc hi
      exact ⟨hframe, fun _ => hage hne⟩
    · intro hnot
      split
      · rfl
      · next hne => exact hfree fun hi => hnot ⟨hi, hne⟩

/-- The head of a queue that is not empty is occupied. -/
theorem Queue.occupied_head (q : Queue) (hsome : q.empty = false) : q.occupied q.head :=
  ⟨hsome, by simp⟩

/-- Ageing the head keeps R17: which slots are occupied, and every slot's frame, stay. -/
theorem Queue.inv_ageHead (cap : Nat) (q : Queue) (hinv : q.Inv cap) (hsome : q.empty = false) :
    q.ageHead.Inv cap := by
  obtain ⟨hempty, hslots⟩ := hinv
  refine ⟨hempty, fun i => ?_⟩
  obtain ⟨hocc, hfree⟩ := hslots i
  have hsame : q.ageHead.occupied i ↔ q.occupied i := Iff.rfl
  rw [hsame, Queue.slot_ageHead, Queue.ageHead_head]
  split
  · next hi =>
    subst hi
    obtain ⟨hframe, -⟩ := hocc (q.occupied_head hsome)
    exact ⟨fun _ => ⟨hframe, fun hne => absurd rfl hne⟩, fun hnot => absurd (q.occupied_head hsome) hnot⟩
  · exact ⟨hocc, hfree⟩

/-- The staging frame that ENQ takes is a frame for R17. -/
theorem Staging.toSlot_holdsFrame (cap : Nat) (g : Staging) (hinv : g.Inv cap) (hframe : g.isFrame = true) :
    g.toSlot.HoldsFrame cap := by
  obtain ⟨hwf, hlen, hzero⟩ := hinv
  obtain ⟨hne, hmark⟩ : g.len ≠ 0 ∧ g.buf.read 0 = startMarker := by
    simpa [Staging.isFrame] using hframe
  exact ⟨hwf, by rw [Staging.toSlot_len]; bv_omega, hlen, hmark, hzero⟩

/-- All that replacing a slot does to the slots. -/
theorem Queue.slot_setSlot (q : Queue) (k i : BitVec 4) (e : Slot) :
    (q.setSlot k e).slot i = if i = k then e else q.slot i := by
  split
  · next hi => rw [hi, Queue.slot_setSlot_same]
  · next hi => exact q.slot_setSlot_ne k i e hi

/-- A queue with one more occupied slot, which holds a frame of age 0, keeps R17. -/
theorem Queue.inv_of_added (cap : Nat) (q r : Queue) (k : BitVec 4) (e : Slot) (hinv : q.Inv cap)
    (hframe : e.HoldsFrame cap) (hage : e.age = 0) (hsome : r.empty = false) (hhead : r.head = q.head)
    (hslots : ∀ i, r.slot i = (q.setSlot k e).slot i)
    (hadded : ∀ i, r.occupied i ↔ q.occupied i ∨ i = k) : r.Inv cap := by
  obtain ⟨-, hold⟩ := hinv
  refine ⟨fun hempty => absurd (hempty.symm.trans hsome) (by decide), fun i => ?_⟩
  obtain ⟨hocc, hfree⟩ := hold i
  rw [hslots, Queue.slot_setSlot, hadded, hhead]
  split
  · next hi => exact ⟨fun _ => ⟨hframe, fun _ => hage⟩, fun hnot => absurd (.inr hi) hnot⟩
  · next hi => exact ⟨fun h => hocc (h.resolve_right hi), fun hnot => hfree fun h => hnot (.inl h)⟩

/-- ENQ keeps R17: into an empty queue at slot 0, else behind the tail. -/
theorem execEnq_keeps_q_inv (s t : State) (hstg : s.stg.Inv s.cfg.frameCap)
    (hq : s.q.Inv s.cfg.frameCap) (h : execEnq s = .next t) : t.q.Inv s.cfg.frameCap := by
  rcases execEnq_frame s t h with ⟨c, rfl⟩ | ⟨hframe, hempty, rfl⟩ | ⟨hframe, hsome, hroom, rfl⟩
  · exact hq
  · obtain ⟨hhead, -⟩ := hq.1 hempty
    refine s.q.inv_of_added _ _ 0 _ hq (s.stg.toSlot_holdsFrame _ hstg hframe) rfl rfl hhead.symm
      (fun _ => rfl) fun i => ?_
    simp [Queue.occupied, hempty, BitVec.toNat_eq]
  · refine s.q.inv_of_added _ _ (s.q.tail + 1) _ hq (s.stg.toSlot_holdsFrame _ hstg hframe) rfl hsome rfl
      (fun _ => rfl) fun i => ?_
    simp only [Queue.occupied, Queue.setSlot_empty, Queue.setSlot_head, hsome, true_and]
    constructor
    · intro hle
      by_contra hnot
      bv_omega
    · rintro (hle | rfl) <;> bv_omega

/-- TICK keeps R17: it ages or retires the head of a queue that has one. -/
theorem execTick_keeps_q_inv (s t : State) (hq : s.q.Inv s.cfg.frameCap) (h : execTick s = .next t) :
    t.q.Inv s.cfg.frameCap := by
  obtain ⟨_, q, rfl, rfl | ⟨hsome, rfl⟩ | ⟨hsome, rfl⟩⟩ := execTick_frame s t h
  · exact hq
  · exact s.q.inv_ageHead _ hq hsome
  · exact s.q.inv_retireHead _ hq hsome

/-- RXB keeps all three invariants: of the queue it can only retire the head. -/
theorem execRxb_keeps_inv (s t : State) (d : Byte) (hinv : s.Inv) (h : execRxb d s = .next t) : t.Inv := by
  obtain ⟨hrx, hstg, hq⟩ := hinv
  have hrx' := execRxb_keeps_rx_inv s t d hrx h
  obtain ⟨rx, _, _, q, rfl, rfl | ⟨hsome, rfl⟩⟩ := execRxb_frame s t d h
  · exact ⟨hrx', hstg, hq⟩
  · exact ⟨hrx', hstg, s.q.inv_retireHead _ hq hsome⟩

/-- A staging write that keeps R15 keeps the block's invariant. -/
theorem stagingWrite_keeps_inv (s t : State) (hinv : s.Inv) (hstg : t.stg.Inv s.cfg.frameCap)
    (hframe : (∃ g, t = { s with stg := g }) ∨ t = s.raiseError .stgErr) : t.Inv := by
  obtain ⟨hrx, -, hq⟩ := hinv
  rcases hframe with ⟨g, rfl⟩ | rfl <;> exact ⟨hrx, hstg, hq⟩

theorem stgAppend_keeps_inv (s t : State) (d : Byte) (hinv : s.Inv) (h : s.stgAppend d = .next t) :
    t.Inv :=
  stagingWrite_keeps_inv s t hinv (stgAppend_keeps_stg_inv s t d hinv.2.1 h) (stgAppend_frame s t d h)

/-- A read operation emits an event or records an error, and writes none of the three units. -/
theorem readByte_keeps_inv (s : State) (m : Memory) (a : Byte) (hinv : s.Inv) : (s.readByte m a).Inv := by
  rcases readByte_cases s m a with ⟨-, h⟩ | ⟨-, h⟩ <;> rw [h] <;> exact hinv

/-- Every operation keeps the invariants, by the unit it writes. -/
theorem exec_keeps_inv (i : Instr) (s t : State) (hinv : s.Inv) (h : exec i s = .next t) : t.Inv := by
  obtain ⟨hrx, hstg, hq⟩ := id hinv
  cases i with
  | nop => cases h; exact hinv
  | rxb d => exact execRxb_keeps_inv s t d hinv h
  | tick =>
    have hq' := execTick_keeps_q_inv s t hq h
    obtain ⟨_, _, rfl, -⟩ := execTick_frame s t h
    exact ⟨hrx, hstg, hq'⟩
  | sclr => cases h; exact ⟨hrx, Staging.inv_cleared _, hq⟩
  | spush d => exact stgAppend_keeps_inv s t _ hinv h
  | swr a d =>
    exact stagingWrite_keeps_inv s t hinv (execSwr_keeps_stg_inv s t a d hstg h) (execSwr_frame s t a d h)
  | stag d => cases h; exact hinv
  | scrc => exact stgAppend_keeps_inv s t _ hinv h
  | schk => exact stgAppend_keeps_inv s t _ hinv h
  | sver =>
    obtain ⟨_, rfl⟩ := execSver_frame s t h
    exact hinv
  | enq =>
    have hq' := execEnq_keeps_q_inv s t hstg hq h
    rcases execEnq_frame s t h with ⟨_, rfl⟩ | ⟨-, -, rfl⟩ | ⟨-, -, -, rfl⟩ <;> exact ⟨hrx, hstg, hq'⟩
  | rdreg r => cases h; exact hinv
  | rdstg a => cases h; exact readByte_keeps_inv s _ a hinv
  | rdrx a => cases h; exact readByte_keeps_inv s _ a hinv
  | rdslot a k => cases h; exact readByte_keeps_inv s _ a hinv
  | clrst m => cases h; exact hinv

/-- Settles O11, by the five things a step can be (`step_cases`). -/
theorem stepKeepsInv : Obligations.StepKeepsInv := by
  intro s t hinv h
  rcases step_cases s t h with rfl | ⟨_, rest, -, -, rfl⟩ | ⟨rest, rfl⟩ | ⟨rest, rfl⟩ | ⟨i, rest, hexec⟩
  · exact hinv
  · exact State.inv_resetWith _ _ _
  · exact hinv
  · exact hinv
  · exact exec_keeps_inv i { s with inputs := rest } t hinv hexec

end Sys2Proof.Machine
end

section
/-! STATUS bits are sticky (R19): only CLRST clears one. -/

namespace Sys2Proof.Machine

/-- Every STATUS bit that is 1 in `s` is 1 in `t`. -/
def State.StatusKept (s t : State) : Prop := ∀ k, s.status.getLsbD k = true → t.status.getLsbD k = true

/-- Every update that does not name STATUS. -/
theorem State.statusKept_of_same (s t : State) (h : t.status = s.status) : s.StatusKept t :=
  fun _ hk => h ▸ hk

theorem State.statusKept_trans {s t u : State} (hst : s.StatusKept t) (htu : t.StatusKept u) :
    s.StatusKept u :=
  fun k hk => htu k (hst k hk)

/-- Recording an error sets a bit and clears none (R82). -/
theorem State.statusKept_raiseError (s : State) (c : ErrCode) : s.StatusKept (s.raiseError c) := fun k hk => by
  rw [State.raiseError_status, statusSet, BitVec.getLsbD_or, hk, Bool.true_or]

theorem State.statusKept_readByte (s : State) (m : Memory) (a : Byte) : s.StatusKept (s.readByte m a) := by
  rcases readByte_cases s m a with ⟨-, h⟩ | ⟨-, h⟩ <;> rw [h]
  · exact s.statusKept_of_same _ rfl
  · exact s.statusKept_raiseError .illCmd

theorem State.statusKept_recordChecks (s : State) (n : Nat) : s.StatusKept (s.recordChecks n) := by
  have hcrc : s.StatusKept (if verifyCrc s.cfg s.rx.buf n then s else s.raiseError .crcErr) := by
    split
    · exact s.statusKept_of_same s rfl
    · exact s.statusKept_raiseError .crcErr
  unfold State.recordChecks
  split
  · exact s.statusKept_raiseError .lenErr
  · dsimp only
    split
    · exact hcrc
    · exact State.statusKept_trans hcrc (State.statusKept_raiseError _ .chkErr)

theorem State.handOn_status (s : State) (n : Nat) : (s.handOn n).status = s.status := by
  rcases handOn_cases s n with h | ⟨-, -, h⟩ <;> rw [h]

/-- Completion records what validation finds; handing on and clearing leave STATUS alone (R58). -/
theorem State.statusKept_complete (s : State) : s.StatusKept s.complete := by
  have hchecks := s.statusKept_recordChecks s.rx.len.toNat
  unfold State.complete
  dsimp only
  split
  · exact State.statusKept_trans hchecks (State.statusKept_of_same _ _ (State.handOn_status _ _))
  · exact hchecks

/-- Completing a frame in a state whose receiver alone was written. -/
theorem State.statusKept_complete_withRx (s : State) (r : Receiver) :
    s.StatusKept ({ s with rx := r } : State).complete :=
  State.statusKept_complete { s with rx := r }

theorem State.statusKept_execRxb (s t : State) (d : Byte) (h : execRxb d s = .next t) : s.StatusKept t := by
  cases execRxb_outcome s t d h with
  | zeroLength => exact s.statusKept_raiseError .lenErr
  | overlong => exact s.statusKept_raiseError .lenErr
  | lengthCompletes => exact s.statusKept_complete_withRx _
  | payloadCompletes => exact s.statusKept_complete_withRx _
  | ignored => exact s.statusKept_of_same _ rfl
  | started => exact s.statusKept_of_same _ rfl
  | lengthTaken => exact s.statusKept_of_same _ rfl
  | payloadTaken => exact s.statusKept_of_same _ rfl
  | skippedLast => exact s.statusKept_of_same _ rfl
  | skipped => exact s.statusKept_of_same _ rfl

/-- What `stgAppend_frame` and `execSwr_frame` leave possible for a staging write. -/
theorem State.statusKept_stagingWrite (s t : State)
    (h : (∃ g, t = { s with stg := g }) ∨ t = s.raiseError .stgErr) : s.StatusKept t := by
  rcases h with ⟨g, rfl⟩ | rfl
  · exact s.statusKept_of_same _ rfl
  · exact s.statusKept_raiseError _

theorem State.statusKept_execEnq (s t : State) (h : execEnq s = .next t) : s.StatusKept t := by
  rcases execEnq_frame s t h with ⟨c, rfl⟩ | ⟨-, -, rfl⟩ | ⟨-, -, -, rfl⟩
  · exact s.statusKept_raiseError c
  · exact s.statusKept_of_same _ rfl
  · exact s.statusKept_of_same _ rfl

/-- Settles O16, by the operation. -/
theorem statusBitsAreSticky : Obligations.StatusBitsAreSticky := by
  intro i s t h hnotClrst
  change s.StatusKept t
  cases i with
  | nop => cases h; exact s.statusKept_of_same _ rfl
  | rxb d => exact s.statusKept_execRxb t d h
  | tick =>
    obtain ⟨_, _, rfl, -⟩ := execTick_frame s t h
    exact s.statusKept_of_same _ rfl
  | sclr => cases h; exact s.statusKept_of_same _ rfl
  | spush d => exact s.statusKept_stagingWrite t (stgAppend_frame s t _ h)
  | swr a d => exact s.statusKept_stagingWrite t (execSwr_frame s t a d h)
  | stag d => cases h; exact s.statusKept_of_same _ rfl
  | scrc => exact s.statusKept_stagingWrite t (stgAppend_frame s t _ h)
  | schk => exact s.statusKept_stagingWrite t (stgAppend_frame s t _ h)
  | sver =>
    obtain ⟨_, rfl⟩ := execSver_frame s t h
    exact s.statusKept_of_same _ rfl
  | enq => exact s.statusKept_execEnq t h
  | rdreg r => cases h; exact s.statusKept_of_same _ rfl
  | rdstg a => cases h; exact s.statusKept_readByte _ a
  | rdrx a => cases h; exact s.statusKept_readByte _ a
  | rdslot a k => cases h; exact s.statusKept_readByte _ a
  | clrst m => exact absurd rfl (hnotClrst m)

end Sys2Proof.Machine
end

section
/-! STATUS and VERIFY steer nothing (R21). Two runs that differ in them alone are followed through each operation:
every condition an operation tests is the same in both. -/

namespace Sys2Proof.Machine

/-- `u` is `s` but for the values of STATUS and VERIFY. -/
def State.SameButStatus (s u : State) : Prop := ∃ st v, u = { s with status := st, verify := v }

/-- Both results go on, to states that are the same but for STATUS and VERIFY, or both are the same fault. -/
inductive Result.Alike : Result → Result → Prop
  | next {t u : State} (h : t.SameButStatus u) : Result.Alike (.next t) (.next u)
  | fault (f : Fault) : Result.Alike (.fault f) (.fault f)

theorem State.sameButStatus_emit {s u : State} (h : s.SameButStatus u) (e : Event) :
    (s.emit e).SameButStatus (u.emit e) := by
  obtain ⟨st, v, rfl⟩ := h
  exact ⟨_, _, rfl⟩

theorem State.sameButStatus_raiseError {s u : State} (h : s.SameButStatus u) (c : ErrCode) :
    (s.raiseError c).SameButStatus (u.raiseError c) := by
  obtain ⟨st, v, rfl⟩ := h
  exact ⟨_, _, rfl⟩

theorem State.sameButStatus_withRx {s u : State} (h : s.SameButStatus u) (r : Receiver) :
    ({ s with rx := r } : State).SameButStatus { u with rx := r } := by
  obtain ⟨st, v, rfl⟩ := h
  exact ⟨_, _, rfl⟩

/-- The last act of completion (R58). -/
theorem State.sameButStatus_clearRx {s u : State} (h : s.SameButStatus u) :
    ({ s with rx := { s.rx.clear with phase := .idle } } : State).SameButStatus
      { u with rx := { u.rx.clear with phase := .idle } } := by
  obtain ⟨st, v, rfl⟩ := h
  exact ⟨_, _, rfl⟩

theorem State.sameButStatus_withQ {s u : State} (h : s.SameButStatus u) (q : Queue) :
    ({ s with q := q } : State).SameButStatus { u with q := q } := by
  obtain ⟨st, v, rfl⟩ := h
  exact ⟨_, _, rfl⟩

/-- A branch on a condition that both runs share. -/
theorem State.sameButStatus_ite {c : Prop} [Decidable c] {s t u v : State} (hs : s.SameButStatus u)
    (ht : t.SameButStatus v) : (if c then s else t).SameButStatus (if c then u else v) := by
  split
  · exact hs
  · exact ht

theorem Result.alike_ite {c : Prop} [Decidable c] {a b a' b' : Result} (ha : Result.Alike a a')
    (hb : Result.Alike b b') : Result.Alike (if c then a else b) (if c then a' else b') := by
  split
  · exact ha
  · exact hb

/-- Validation tests the receive buffer alone, so it records the same errors in both runs. -/
theorem State.sameButStatus_recordChecks {s u : State} (h : s.SameButStatus u) (n : Nat) :
    (s.recordChecks n).SameButStatus (u.recordChecks n) := by
  obtain ⟨st, v, rfl⟩ := id h
  have hcrc := State.sameButStatus_ite (c := verifyCrc s.cfg s.rx.buf n = true) h
    (State.sameButStatus_raiseError h .crcErr)
  exact State.sameButStatus_ite (State.sameButStatus_raiseError h .lenErr)
    (State.sameButStatus_ite hcrc (State.sameButStatus_raiseError hcrc .chkErr))

theorem State.sameButStatus_ackMatch {s u : State} (h : s.SameButStatus u) (n : Nat) :
    (s.ackMatch n).SameButStatus (u.ackMatch n) := by
  obtain ⟨st, v, rfl⟩ := id h
  exact State.sameButStatus_ite (State.sameButStatus_withQ (State.sameButStatus_emit h _) _) h

theorem State.sameButStatus_handOn {s u : State} (h : s.SameButStatus u) (n : Nat) :
    (s.handOn n).SameButStatus (u.handOn n) := by
  obtain ⟨st, v, rfl⟩ := id h
  have hframe := State.sameButStatus_emit h (.frame n (s.rx.buf.bytes 0 n) s.isReport)
  exact State.sameButStatus_ite (State.sameButStatus_ackMatch hframe n) hframe

/-- A frame is valid in both runs or in neither, and completion then does the same (R58). -/
theorem State.sameButStatus_complete {s u : State} (h : s.SameButStatus u) :
    s.complete.SameButStatus u.complete := by
  obtain ⟨st, v, rfl⟩ := id h
  have hchecks := State.sameButStatus_recordChecks h s.rx.len.toNat
  have hhanded := State.sameButStatus_ite (c := s.frameValid s.rx.len.toNat = true)
    (State.sameButStatus_handOn hchecks s.rx.len.toNat) hchecks
  exact State.sameButStatus_clearRx hhanded

theorem State.sameButStatus_rxbLen {s u : State} (h : s.SameButStatus u) (d : Byte) :
    (s.rxbLen d).SameButStatus (u.rxbLen d) := by
  obtain ⟨st, v, rfl⟩ := id h
  have herr := State.sameButStatus_raiseError h .lenErr
  exact State.sameButStatus_ite (State.sameButStatus_withRx herr _)
    (State.sameButStatus_ite (State.sameButStatus_withRx herr _)
      (State.sameButStatus_ite (State.sameButStatus_complete (State.sameButStatus_withRx h _))
        (State.sameButStatus_withRx h _)))

theorem rxbPayload_alike {s u : State} (h : s.SameButStatus u) (d : Byte) :
    Result.Alike (s.rxbPayload d) (u.rxbPayload d) := by
  obtain ⟨st, v, rfl⟩ := id h
  have hrx := State.sameButStatus_withRx h { s.rx with
    buf := s.rx.buf.write s.rx.len.toNat d, len := s.rx.len + 1, rem := s.rx.rem - 1 }
  exact Result.alike_ite (.fault _) (Result.alike_ite (.fault _)
    (.next (State.sameButStatus_ite (State.sameButStatus_complete hrx) hrx)))

theorem rxbDiscard_alike {s u : State} (h : s.SameButStatus u) :
    Result.Alike s.rxbDiscard u.rxbDiscard := by
  obtain ⟨st, v, rfl⟩ := id h
  exact Result.alike_ite (.fault _) (.next (State.sameButStatus_withRx h _))

/-- Both runs have the same receiver phase. -/
theorem execRxb_alike {s u : State} (h : s.SameButStatus u) (d : Byte) :
    Result.Alike (execRxb d s) (execRxb d u) := by
  obtain ⟨st, v, rfl⟩ := id h
  unfold execRxb
  dsimp only
  split
  · exact .next (State.sameButStatus_ite (State.sameButStatus_withRx h _) h)
  · exact .next (State.sameButStatus_rxbLen h d)
  · exact rxbPayload_alike h d
  · exact rxbDiscard_alike h

/-- Both runs have the same queue, and so the same head of the same age. -/
theorem execTick_alike {s u : State} (h : s.SameButStatus u) :
    Result.Alike (execTick s) (execTick u) := by
  obtain ⟨st, v, rfl⟩ := id h
  unfold execTick
  dsimp only
  split
  · exact .next (State.sameButStatus_emit h _)
  · exact Result.alike_ite
      (Result.alike_ite (.fault _) (.next (State.sameButStatus_withQ (State.sameButStatus_emit h _) _)))
      (Result.alike_ite (.next (State.sameButStatus_withQ (State.sameButStatus_emit h _) _))
        (.next (State.sameButStatus_withQ h _)))

theorem stgAppend_alike {s u : State} (h : s.SameButStatus u) (d : Byte) :
    Result.Alike (s.stgAppend d) (u.stgAppend d) := by
  obtain ⟨st, v, rfl⟩ := id h
  exact Result.alike_ite (.next (State.sameButStatus_raiseError h _))
    (Result.alike_ite (.fault _) (.next ⟨st, v, rfl⟩))

theorem execSwr_alike {s u : State} (h : s.SameButStatus u) (a d : Byte) :
    Result.Alike (execSwr a d s) (execSwr a d u) := by
  obtain ⟨st, v, rfl⟩ := id h
  exact Result.alike_ite (.next (State.sameButStatus_raiseError h _))
    (Result.alike_ite (.fault _) (.next ⟨st, v, rfl⟩))

theorem execEnq_alike {s u : State} (h : s.SameButStatus u) : Result.Alike (execEnq s) (execEnq u) := by
  obtain ⟨st, v, rfl⟩ := id h
  exact Result.alike_ite (.next (State.sameButStatus_raiseError h _))
    (Result.alike_ite (.next (State.sameButStatus_withQ h _))
      (Result.alike_ite (.next (State.sameButStatus_raiseError h _)) (.next (State.sameButStatus_withQ h _))))

theorem State.sameButStatus_readByte {s u : State} (h : s.SameButStatus u) (m : Memory) (a : Byte) :
    (s.readByte m a).SameButStatus (u.readByte m a) := by
  obtain ⟨st, v, rfl⟩ := id h
  exact State.sameButStatus_ite (State.sameButStatus_emit h _) (State.sameButStatus_raiseError h _)

/-- Of the register map only STATUS and VERIFY read STATUS and VERIFY (R76). -/
theorem State.readReg_of_sameButStatus {s u : State} (h : s.SameButStatus u) (r : Reg)
    (hstatus : r ≠ .status) (hverify : r ≠ .verify) : u.readReg r = s.readReg r := by
  obtain ⟨st, v, rfl⟩ := h
  cases r with
  | status => exact absurd rfl hstatus
  | verify => exact absurd rfl hverify
  | _ => rfl

/-- Every operation but a read of STATUS or VERIFY does alike in both runs. -/
theorem exec_alike (i : Instr) (s : State) (st : BitVec 6) (v : BitVec 4)
    (hstatus : i ≠ .rdreg .status) (hverify : i ≠ .rdreg .verify) :
    Result.Alike (exec i s) (exec i { s with status := st, verify := v }) := by
  have h : s.SameButStatus { s with status := st, verify := v } := ⟨st, v, rfl⟩
  cases i with
  | nop => exact .next h
  | rxb d => exact execRxb_alike h d
  | tick => exact execTick_alike h
  | sclr => exact .next ⟨st, v, rfl⟩
  | spush d => exact stgAppend_alike h d
  | swr a d => exact execSwr_alike h a d
  | stag d => exact .next ⟨st, v, rfl⟩
  | scrc => exact stgAppend_alike h _
  | schk => exact stgAppend_alike h _
  | sver => exact Result.alike_ite (.fault _) (.next ⟨st, _, rfl⟩)
  | enq => exact execEnq_alike h
  | rdreg r =>
    have hread := State.readReg_of_sameButStatus h r (fun hr => hstatus (hr ▸ rfl))
      (fun hr => hverify (hr ▸ rfl))
    simp only [exec, execRdreg, hread]
    exact .next (State.sameButStatus_emit h _)
  | rdstg a => exact .next (State.sameButStatus_readByte h _ a)
  | rdrx a => exact .next (State.sameButStatus_readByte h _ a)
  | rdslot a k => exact .next (State.sameButStatus_readByte h _ a)
  | clrst m => exact .next ⟨_, v, rfl⟩

/-- Settles O18, by the operation (`exec_alike`). -/
theorem statusAndVerifySteerNothing : Obligations.StatusAndVerifySteerNothing := by
  intro i s st v hstatus hverify
  have halike := exec_alike i s st v hstatus hverify
  generalize exec i s = here, exec i { s with status := st, verify := v } = there at halike ⊢
  cases halike with
  | next h => exact h
  | fault f => rfl

end Sys2Proof.Machine
end

section
/-! The step and the units' memories (20_memory.md): a step runs the word it takes (R28), each unit's state is written
by its own operations alone (R20, R24), and every write keeps the buffers in their canonical form. -/

namespace Sys2Proof.Machine

/-- A step takes the next event of an instant that does not assert reset, and processes its word (R28, R39). -/
theorem step_of_take (s : State) (now left : Instant) (rest : List Instant) (w : EventWord)
    (hin : s.inputs = now :: rest) (hreset : now.reset = false) (htake : now.take = some (w, left)) :
    step s = ({ s with inputs := left.before rest } : State).process w := by
  simp [step, hin, hreset, htake]

/-- Processing a legal word is its operation (R35). -/
theorem process_of_decode (s : State) (w : EventWord) (i : Instr) (hdec : decode s.cfg.frameCap w = .ok i) :
    s.process w = exec i s := by
  simp [State.process, hdec]

/-- Settles O5: the word is taken, and taking it leaves the capacity it is decoded under. -/
theorem stepRunsDecodedWord : Obligations.StepRunsDecodedWord := by
  intro s now left rest w i hin hreset htake hdec
  rw [step_of_take s now left rest w hin hreset htake]
  exact process_of_decode { s with inputs := left.before rest } w i hdec

/-- The operations that R24 names as writers of `stg.buf`, and STAG, which writes `stg.tag` (R52). -/
def Instr.WritesStaging (i : Instr) : Prop :=
  i = .sclr ∨ i = .scrc ∨ i = .schk ∨ (∃ d, i = .spush d) ∨ (∃ a d, i = .swr a d) ∨ ∃ d, i = .stag d

/-- Every slot of `r` has the buffer it has in `q`, or the buffer `m`. -/
def Queue.BuffersFrom (q : Queue) (m : Memory) (r : Queue) : Prop :=
  ∀ k, (r.slot k).buf = (q.slot k).buf ∨ (r.slot k).buf = m

theorem Queue.buffersFrom_refl (q : Queue) (m : Memory) : q.BuffersFrom m q := fun _ => .inl rfl

theorem Queue.buffersFrom_setSlot (q : Queue) (k : BitVec 4) (e : Slot) : q.BuffersFrom e.buf (q.setSlot k e) := by
  intro i
  rw [Queue.slot_setSlot]
  split
  · exact .inr rfl
  · exact .inl rfl

theorem Queue.buffersFrom_retireHead (q : Queue) : q.BuffersFrom [] q.retireHead := by
  intro i
  rw [Queue.slot_retireHead]
  split
  · exact .inr rfl
  · exact .inl rfl

theorem Queue.buffersFrom_ageHead (q : Queue) : q.BuffersFrom [] q.ageHead := by
  intro i
  rw [Queue.slot_ageHead]
  split
  · next hi => exact .inl (hi ▸ rfl)
  · exact .inl rfl

/-- Everything an operation that answers can have written at `s`, by the unit it belongs to (R24's written-by
table), with what becomes of the unit's buffers. -/
inductive UnitWrite (s : State) : Instr → State → Prop
  | recorded (i : Instr) (st : BitVec 6) (evs : List Event) : UnitWrite s i { s with status := st, out := evs }
  | received (d : Byte) (rx : Receiver) (st : BitVec 6) (evs : List Event) (q : Queue)
      (hrx : s.rx.buf.wf = true → rx.buf.wf = true) (hq : s.q.BuffersFrom [] q) :
      UnitWrite s (.rxb d) { s with rx := rx, status := st, out := evs, q := q }
  | ticked (evs : List Event) (q : Queue) (hq : s.q.BuffersFrom [] q) :
      UnitWrite s .tick { s with out := evs, q := q }
  | staged (i : Instr) (g : Staging) (hi : Instr.WritesStaging i) (hg : s.stg.buf.wf = true → g.buf.wf = true) :
      UnitWrite s i { s with stg := g }
  | enqueued (q : Queue) (hq : s.q.BuffersFrom s.stg.buf q) : UnitWrite s .enq { s with q := q }
  | verified (v : BitVec 4) : UnitWrite s .sver { s with verify := v }

/-- RXB writes the receive buffer byte by byte or clears it (R54 to R58). -/
theorem execRxb_keeps_buf_wf (s t : State) (d : Byte) (h : execRxb d s = .next t) (hwf : s.rx.buf.wf = true) :
    t.rx.buf.wf = true := by
  cases execRxb_outcome s t d h with
  | started => exact Memory.wf_write _ _ _ rfl
  | lengthTaken => exact Memory.wf_write _ _ _ hwf
  | payloadTaken => exact Memory.wf_write _ _ _ hwf
  | zeroLength => rfl
  | overlong => rfl
  | lengthCompletes => rw [complete_rx]; rfl
  | payloadCompletes => rw [complete_rx]; rfl
  | ignored => exact hwf
  | skippedLast => exact hwf
  | skipped => exact hwf

theorem execRxb_unitWrite (s t : State) (d : Byte) (h : execRxb d s = .next t) : UnitWrite s (.rxb d) t := by
  have hwf := execRxb_keeps_buf_wf s t d h
  obtain ⟨_, _, _, _, rfl, rfl | ⟨-, rfl⟩⟩ := execRxb_frame s t d h
  · exact .received d _ _ _ _ hwf (s.q.buffersFrom_refl _)
  · exact .received d _ _ _ _ hwf s.q.buffersFrom_retireHead

theorem execTick_unitWrite (s t : State) (h : execTick s = .next t) : UnitWrite s .tick t := by
  obtain ⟨_, _, rfl, rfl | ⟨-, rfl⟩ | ⟨-, rfl⟩⟩ := execTick_frame s t h
  · exact .ticked _ _ (s.q.buffersFrom_refl _)
  · exact .ticked _ _ s.q.buffersFrom_ageHead
  · exact .ticked _ _ s.q.buffersFrom_retireHead

theorem stgAppend_unitWrite (i : Instr) (s t : State) (d : Byte) (hi : Instr.WritesStaging i)
    (h : s.stgAppend d = .next t) : UnitWrite s i t := by
  rcases stgAppend_cases s d with ⟨-, he⟩ | ⟨-, he⟩ | ⟨-, he⟩ <;> rw [he] at h <;> cases h
  · exact .recorded i _ _
  · exact .staged i _ hi (Memory.wf_write _ _ _)

theorem execSwr_unitWrite (s t : State) (a d : Byte) (h : execSwr a d s = .next t) : UnitWrite s (.swr a d) t := by
  unfold execSwr at h
  split at h
  · cases h; exact .recorded _ _ _
  · split at h
    · cases h
    · cases h; exact .staged _ _ (by simp [Instr.WritesStaging]) (Memory.wf_write _ _ _)

theorem execEnq_unitWrite (s t : State) (h : execEnq s = .next t) : UnitWrite s .enq t := by
  rcases execEnq_frame s t h with ⟨_, rfl⟩ | ⟨-, -, rfl⟩ | ⟨-, -, -, rfl⟩
  · exact .recorded _ _ _
  · exact .enqueued _ (s.q.buffersFrom_setSlot 0 s.stg.toSlot)
  · exact .enqueued _ (s.q.buffersFrom_setSlot (s.q.tail + 1) s.stg.toSlot)

theorem readByte_unitWrite (i : Instr) (s : State) (m : Memory) (a : Byte) : UnitWrite s i (s.readByte m a) := by
  rcases readByte_cases s m a with ⟨-, h⟩ | ⟨-, h⟩ <;> rw [h] <;> exact .recorded i _ _

/-- The inversion of `exec` by the unit written. -/
theorem exec_unitWrite (i : Instr) (s t : State) (h : exec i s = .next t) : UnitWrite s i t := by
  cases i with
  | nop => cases h; exact .recorded _ _ _
  | rxb d => exact execRxb_unitWrite s t d h
  | tick => exact execTick_unitWrite s t h
  | sclr => cases h; exact .staged _ _ (by simp [Instr.WritesStaging]) fun _ => rfl
  | spush d => exact stgAppend_unitWrite _ s t _ (by simp [Instr.WritesStaging]) h
  | swr a d => exact execSwr_unitWrite s t a d h
  | stag d => cases h; exact .staged _ _ (by simp [Instr.WritesStaging]) id
  | scrc => exact stgAppend_unitWrite _ s t _ (by simp [Instr.WritesStaging]) h
  | schk => exact stgAppend_unitWrite _ s t _ (by simp [Instr.WritesStaging]) h
  | sver =>
    obtain ⟨v, rfl⟩ := execSver_frame s t h
    exact .verified v
  | enq => exact execEnq_unitWrite s t h
  | rdreg r => cases h; exact .recorded _ _ _
  | rdstg a => cases h; exact readByte_unitWrite _ s _ a
  | rdrx a => cases h; exact readByte_unitWrite _ s _ a
  | rdslot a k => cases h; exact readByte_unitWrite _ s _ a
  | clrst m => cases h; exact .recorded _ _ _

/-- Settles O15, by the unit written (`exec_unitWrite`). -/
theorem eachUnitWritesOnlyItsOwnState : Obligations.EachUnitWritesOnlyItsOwnState := by
  intro i s t h
  cases exec_unitWrite i s t h with
  | recorded => exact ⟨rfl, rfl, fun _ => rfl, fun _ _ _ _ _ _ => rfl, fun _ _ _ => rfl, fun _ => rfl⟩
  | received d =>
    exact ⟨rfl, rfl, fun hne => absurd rfl (hne d), fun _ _ _ _ _ _ => rfl, fun hne _ _ => absurd rfl (hne d),
      fun _ => rfl⟩
  | ticked =>
    exact ⟨rfl, rfl, fun _ => rfl, fun _ _ _ _ _ _ => rfl, fun _ hne _ => absurd rfl hne, fun _ => rfl⟩
  | staged _ _ hi =>
    refine ⟨rfl, rfl, fun _ => rfl, fun hsclr hscrc hschk hspush hswr hstag => ?_, fun _ _ _ => rfl, fun _ => rfl⟩
    rcases hi with hi | hi | hi | ⟨d, hi⟩ | ⟨a, d, hi⟩ | ⟨d, hi⟩
    · exact absurd hi hsclr
    · exact absurd hi hscrc
    · exact absurd hi hschk
    · exact absurd hi (hspush d)
    · exact absurd hi (hswr a d)
    · exact absurd hi (hstag d)
  | enqueued =>
    exact ⟨rfl, rfl, fun _ => rfl, fun _ _ _ _ _ _ => rfl, fun _ _ hne => absurd rfl hne, fun _ => rfl⟩
  | verified =>
    exact ⟨rfl, rfl, fun _ => rfl, fun _ _ _ _ _ _ => rfl, fun _ _ _ => rfl, fun hne => absurd rfl hne⟩

/-- Slots whose buffers are old ones or one further canonical buffer are canonical. -/
theorem Queue.wf_of_buffersFrom {q r : Queue} {m : Memory} (hfrom : q.BuffersFrom m r)
    (hq : ∀ k, (q.slot k).buf.wf = true) (hm : m.wf = true) (k : BitVec 4) : (r.slot k).buf.wf = true := by
  rcases hfrom k with hk | hk <;> rw [hk]
  · exact hq k
  · exact hm

/-- Every operation keeps the buffers canonical, by the unit it writes. -/
theorem exec_keeps_canonical (i : Instr) (s t : State) (hcanon : s.canonical) (h : exec i s = .next t) :
    t.canonical := by
  obtain ⟨hrx, hstg, hq⟩ := hcanon
  cases exec_unitWrite i s t h with
  | recorded => exact ⟨hrx, hstg, hq⟩
  | received _ _ _ _ _ hrx' hq' => exact ⟨hrx' hrx, hstg, Queue.wf_of_buffersFrom hq' hq rfl⟩
  | ticked _ _ hq' => exact ⟨hrx, hstg, Queue.wf_of_buffersFrom hq' hq rfl⟩
  | staged _ _ _ hstg' => exact ⟨hrx, hstg' hstg, hq⟩
  | enqueued _ hq' => exact ⟨hrx, hstg, Queue.wf_of_buffersFrom hq' hq hstg⟩
  | verified => exact ⟨hrx, hstg, hq⟩

theorem State.canonical_resetWith (c : Config) (ins : List Instant) (evs : List Event) :
    (State.resetWith c ins evs).canonical :=
  ⟨rfl, rfl, fun k => by rw [State.resetWith_q_slot]; rfl⟩

/-- Settles O13, by the five things a step can be (`step_cases`). -/
theorem stepKeepsBuffersCanonical : Obligations.StepKeepsBuffersCanonical := by
  intro s t hcanon h
  rcases step_cases s t h with rfl | ⟨_, rest, -, -, rfl⟩ | ⟨rest, rfl⟩ | ⟨rest, rfl⟩ | ⟨i, rest, hexec⟩
  · exact hcanon
  · exact State.canonical_resetWith _ _ _
  · exact hcanon
  · exact hcanon
  · exact exec_keeps_canonical i { s with inputs := rest } t hcanon hexec

end Sys2Proof.Machine
end

section
/-! The event word (30_encoding.md): the decoder accepts exactly the words of the well-formed operations (R35, R37), the
eight cases of R37 are exactly the words it refuses, and the words the ports offer are RXB and TICK (R38, R39). -/

namespace Sys2Proof

/-- The reserved field is tested before the opcode map (R33, R37 case 2). -/
theorem decode_eq_ok_iff_fields (cap : Nat) (w : EventWord) (i : Instr) :
    decode cap w = .ok i ↔
      reservedField w = 0 ∧ decodeFields cap (opField w) (aField w) (dField w) = .ok i := by
  unfold decode
  split
  · next hzero => exact ⟨fun h => ⟨hzero, h⟩, fun ⟨_, h⟩ => h⟩
  · next hset => exact ⟨fun h => (by cases h), fun ⟨hzero, _⟩ => absurd hzero hset⟩

/-- A byte is its two halves. -/
theorem byte_of_halves (d : Byte) (hi : BitVec 4) (h : d.extractLsb' 4 4 = hi) :
    hi ++ d.extractLsb' 0 4 = d := by
  rw [← h]
  exact (BitVec.extractLsb'_append_extractLsb'_eq_extractLsb' (by rfl)).trans BitVec.extractLsb'_eq_self

/-- A byte with no bit above the mask of CLRST is that mask (R34). -/
theorem byte_of_mask (d : Byte) (h : d.extractLsb' 6 2 = 0) : 0#2 ++ d.extractLsb' 0 6 = d := by
  rw [← show d.extractLsb' 6 2 = 0#2 from h]
  exact (BitVec.extractLsb'_append_extractLsb'_eq_extractLsb' (by rfl)).trans BitVec.extractLsb'_eq_self

/-- The D byte of RDSLOT holds the slot number below four zero bits (R34). -/
theorem dByte_rdslot_halves (a : Byte) (s : BitVec 4) :
    (Instr.rdslot a s).dByte.extractLsb' 4 4 = 0 ∧ (Instr.rdslot a s).dByte.extractLsb' 0 4 = s :=
  ⟨BitVec.extractLsb'_append_eq_left, BitVec.extractLsb'_append_eq_right⟩

/-- The D byte of CLRST holds the mask below two zero bits (R34). -/
theorem dByte_clrst_parts (m : BitVec 6) :
    (Instr.clrst m).dByte.extractLsb' 6 2 = 0 ∧ (Instr.clrst m).dByte.extractLsb' 0 6 = m :=
  ⟨BitVec.extractLsb'_append_eq_left, BitVec.extractLsb'_append_eq_right⟩

/-- The register map names a register only by its own address (R76). -/
theorem regAddr_of_regAt (a : Byte) (r : Reg) (h : regAt a = some r) : regAddr r = a := by
  unfold regAt at h
  split at h
  case h_12 =>
    split at h
    case h_1 hpage => cases h; exact byte_of_halves a _ (BitVec.eq_of_toNat_eq hpage)
    case h_2 hpage => cases h; exact byte_of_halves a _ (BitVec.eq_of_toNat_eq hpage)
    case h_3 hpage => cases h; exact byte_of_halves a _ (BitVec.eq_of_toNat_eq hpage)
    case h_4 => cases h
  all_goals
    next haddr =>
      cases h
      exact (BitVec.eq_of_toNat_eq haddr).symm

/-- The opcode map read at an operation's own fields (R35). -/
theorem decodeFields_of_wf (cap : Nat) (i : Instr) (h : i.wf cap = true) :
    decodeFields cap i.opcode i.aByte i.dByte = .ok i := by
  cases i with
  | rdreg r => simp [decodeFields, Instr.opcode, Instr.aByte, Instr.dByte, requireZero]
  | rdstg a => exact if_pos h
  | rdrx a => exact if_pos h
  | rdslot a s =>
    obtain ⟨hhigh, hslot⟩ := dByte_rdslot_halves a s
    refine (if_pos hhigh).trans ((if_pos h).trans ?_)
    rw [hslot]; rfl
  | clrst m =>
    obtain ⟨hhigh, hmask⟩ := dByte_clrst_parts m
    refine (if_pos hhigh).trans ?_
    rw [hmask]
  | _ => rfl

/-- The fields the opcode map accepts are those of the operation it names, which is well formed (R35, R37). -/
theorem fields_of_decodeFields (cap : Nat) (op a d : Byte) (i : Instr) (h : decodeFields cap op a d = .ok i) :
    (op = i.opcode ∧ a = i.aByte ∧ d = i.dByte) ∧ i.wf cap = true := by
  unfold decodeFields at h
  split at h
  case h_1 hop | h_3 hop | h_4 hop | h_8 hop | h_9 hop | h_10 hop | h_11 hop =>
    simp only [requireZero_eq_ok] at h
    obtain ⟨rfl, rfl, h⟩ := h
    cases h
    exact ⟨⟨BitVec.eq_of_toNat_eq hop, rfl, rfl⟩, rfl⟩
  case h_2 hop | h_5 hop | h_7 hop =>
    obtain ⟨rfl, h⟩ := (requireZero_eq_ok ..).1 h
    cases h
    exact ⟨⟨BitVec.eq_of_toNat_eq hop, rfl, rfl⟩, rfl⟩
  case h_6 hop =>
    cases h
    exact ⟨⟨BitVec.eq_of_toNat_eq hop, rfl, rfl⟩, rfl⟩
  case h_12 hop =>
    obtain ⟨rfl, h⟩ := (requireZero_eq_ok ..).1 h
    split at h
    · next r hreg =>
      cases h
      exact ⟨⟨BitVec.eq_of_toNat_eq hop, (regAddr_of_regAt a r hreg).symm, rfl⟩, rfl⟩
    · cases h
  case h_13 hop | h_14 hop =>
    simp only [requireZero_eq_ok, requireOffset_eq_ok] at h
    obtain ⟨rfl, hcap, rfl⟩ := h
    exact ⟨⟨BitVec.eq_of_toNat_eq hop, rfl, rfl⟩, decide_eq_true hcap⟩
  case h_15 hop =>
    split at h
    · next hhigh =>
      obtain ⟨hcap, rfl⟩ := (requireOffset_eq_ok ..).1 h
      exact ⟨⟨BitVec.eq_of_toNat_eq hop, rfl, (byte_of_halves d _ hhigh).symm⟩, decide_eq_true hcap⟩
    · cases h
  case h_16 hop =>
    obtain ⟨rfl, h⟩ := (requireZero_eq_ok ..).1 h
    split at h
    · next hhigh =>
      cases h
      exact ⟨⟨BitVec.eq_of_toNat_eq hop, rfl, (byte_of_mask d hhigh).symm⟩, rfl⟩
    · cases h
  case h_17 => cases h

/-- The decoder accepts exactly the words of the well-formed operations (R35, R37). -/
theorem decode_eq_ok_iff (cap : Nat) (w : EventWord) (i : Instr) :
    decode cap w = .ok i ↔ encode i = w ∧ i.wf cap = true := by
  rw [decode_eq_ok_iff_fields]
  constructor
  · rintro ⟨hzero, hfields⟩
    obtain ⟨⟨hop, ha, hd⟩, hwf⟩ := fields_of_decodeFields _ _ _ _ i hfields
    exact ⟨by rw [encode, ← hop, ← ha, ← hd, wordOf_fields w hzero], hwf⟩
  · rintro ⟨rfl, hwf⟩
    obtain ⟨hop, hzero, ha, hd⟩ := Laws.EncodedFields.all i
    rw [hop, ha, hd]
    exact ⟨hzero, decodeFields_of_wf cap i hwf⟩

end Sys2Proof

namespace Sys2Proof.Machine

/-- Settles O1. -/
theorem decodeEncodeAgree : Obligations.DecodeEncodeAgree :=
  fun cap i hwf => (decode_eq_ok_iff cap _ i).2 ⟨rfl, hwf⟩

/-- Settles O2. -/
theorem decodedWordReencodes : Obligations.DecodedWordReencodes :=
  fun cap w i => (decode_eq_ok_iff cap w i).1

/-- Settles O4: each word is the encoding of its operation. -/
theorem sampleWordsDecode : Obligations.SampleWordsDecode := by
  refine ⟨?_, ?_, ?_, ?_, ?_, ?_, ?_, ?_⟩ <;> exact (decode_eq_ok_iff ..).2 ⟨by decide, by decide⟩

/-- A register's address is one of the register map (R76). -/
theorem inRegisterMap_regAddr (r : Reg) : inRegisterMap (regAddr r) := by
  cases r with
  | slotLen s | slotAge s | slotTag s =>
    unfold inRegisterMap
    revert s
    decide
  | _ => exact .inl (by decide)

/-- Every address of the register map is a register's (R76). -/
theorem exists_reg_of_inRegisterMap (a : Byte) (h : inRegisterMap a) : ∃ r, a = regAddr r := by
  unfold inRegisterMap at h
  have hsome : (regAt a).isSome = true := by revert a; decide
  obtain ⟨r, hr⟩ := Option.isSome_iff_exists.1 hsome
  exact ⟨r, (regAddr_of_regAt a r hr).symm⟩

/-- Every operation's opcode is in the map (R35, R37 case 1). -/
theorem opcode_mem_mapOpcodes (i : Instr) : i.opcode ∈ mapOpcodes := by
  cases i <;> exact List.elem_iff.1 rfl

/-- Where R35's A column is 0 the operation has no A operand (R37 case 3). -/
theorem aByte_eq_zero (i : Instr) (h : i.opcode ∈ zeroAOpcodes) : i.aByte = 0 := by
  cases i with
  | swr | rdreg | rdstg | rdrx | rdslot => simp [Instr.opcode, zeroAOpcodes] at h
  | _ => rfl

/-- Where R35's D column is 0 the operation has no D operand (R37 case 4). -/
theorem dByte_eq_zero (i : Instr) (h : i.opcode ∈ zeroDOpcodes) : i.dByte = 0 := by
  cases i with
  | rxb | spush | swr | stag | rdslot | clrst => simp [Instr.opcode, zeroDOpcodes] at h
  | _ => rfl

/-- RDSLOT's slot number leaves the upper half of D zero (R37 case 5). -/
theorem dByte_slot_high (i : Instr) (h : i.opcode = 0x23) : i.dByte.extractLsb' 4 4 = 0 := by
  cases i with
  | rdslot a s => exact (dByte_rdslot_halves a s).1
  | _ => cases h

/-- CLRST's mask leaves the upper two bits of D zero (R37 case 6). -/
theorem dByte_mask_high (i : Instr) (h : i.opcode = 0x30) : i.dByte.extractLsb' 6 2 = 0 := by
  cases i with
  | clrst m => exact (dByte_clrst_parts m).1
  | _ => cases h

/-- RDREG's address is in the register map (R37 case 7). -/
theorem aByte_inRegisterMap (i : Instr) (h : i.opcode = 0x20) : inRegisterMap i.aByte := by
  cases i with
  | rdreg r => exact inRegisterMap_regAddr r
  | _ => cases h

/-- The offset of a well-formed buffer read is below `FRAME_CAP` (R37 case 8). -/
theorem aByte_lt_cap (cap : Nat) (i : Instr) (hwf : i.wf cap = true) (h : i.opcode ∈ [0x21#8, 0x22#8, 0x23#8]) :
    i.aByte.toNat < cap := by
  cases i with
  | rdstg | rdrx | rdslot => exact of_decide_eq_true hwf
  | _ => simp [Instr.opcode] at h

/-- None of R37's cases holds of the word of a well-formed operation. -/
theorem not_wordIllegal_encode (cap : Nat) (i : Instr) (hwf : i.wf cap = true) : ¬ wordIllegal cap (encode i) := by
  obtain ⟨hop, hzero, ha, hd⟩ := Laws.EncodedFields.all i
  unfold wordIllegal
  rw [hop, hzero, ha, hd]
  rintro (h | h | ⟨hne, h⟩ | ⟨hne, h⟩ | ⟨h, hne⟩ | ⟨h, hne⟩ | ⟨h, hnot⟩ | ⟨h, hle⟩)
  · exact h (opcode_mem_mapOpcodes i)
  · exact h rfl
  · exact hne (aByte_eq_zero i h)
  · exact hne (dByte_eq_zero i h)
  · exact hne (dByte_slot_high i h)
  · exact hne (dByte_mask_high i h)
  · exact hnot (aByte_inRegisterMap i h)
  · exact absurd (aByte_lt_cap cap i hwf h) (Nat.not_lt.2 hle)

/-- Fields that meet R35 and R37's cases 1 and 3 to 8, opcode by opcode, are those of a well-formed operation. -/
theorem exists_instr_of_fields (cap : Nat) (op a d : Byte) (hop : op ∈ mapOpcodes)
    (ha : op ∈ zeroAOpcodes → a = 0) (hd : op ∈ zeroDOpcodes → d = 0)
    (hslot : op = 0x23 → d.extractLsb' 4 4 = 0) (hmask : op = 0x30 → d.extractLsb' 6 2 = 0)
    (hreg : op = 0x20 → inRegisterMap a) (hoff : op ∈ [0x21#8, 0x22#8, 0x23#8] → a.toNat < cap) :
    ∃ i : Instr, i.wf cap = true ∧ i.opcode = op ∧ i.aByte = a ∧ i.dByte = d := by
  simp only [mapOpcodes, List.mem_cons, List.not_mem_nil, or_false] at hop
  rcases hop with rfl | rfl | rfl | rfl | rfl | rfl | rfl | rfl | rfl | rfl | rfl | rfl | rfl | rfl | rfl | rfl
  · exact ⟨.nop, rfl, rfl, (ha (by decide)).symm, (hd (by decide)).symm⟩
  · exact ⟨.rxb d, rfl, rfl, (ha (by decide)).symm, rfl⟩
  · exact ⟨.tick, rfl, rfl, (ha (by decide)).symm, (hd (by decide)).symm⟩
  · exact ⟨.sclr, rfl, rfl, (ha (by decide)).symm, (hd (by decide)).symm⟩
  · exact ⟨.spush d, rfl, rfl, (ha (by decide)).symm, rfl⟩
  · exact ⟨.swr a d, rfl, rfl, rfl, rfl⟩
  · exact ⟨.stag d, rfl, rfl, (ha (by decide)).symm, rfl⟩
  · exact ⟨.scrc, rfl, rfl, (ha (by decide)).symm, (hd (by decide)).symm⟩
  · exact ⟨.schk, rfl, rfl, (ha (by decide)).symm, (hd (by decide)).symm⟩
  · exact ⟨.sver, rfl, rfl, (ha (by decide)).symm, (hd (by decide)).symm⟩
  · exact ⟨.enq, rfl, rfl, (ha (by decide)).symm, (hd (by decide)).symm⟩
  · obtain ⟨r, hr⟩ := exists_reg_of_inRegisterMap a (hreg rfl)
    exact ⟨.rdreg r, rfl, rfl, hr.symm, (hd (by decide)).symm⟩
  · exact ⟨.rdstg a, decide_eq_true (hoff (by decide)), rfl, rfl, (hd (by decide)).symm⟩
  · exact ⟨.rdrx a, decide_eq_true (hoff (by decide)), rfl, rfl, (hd (by decide)).symm⟩
  · exact ⟨.rdslot a (d.extractLsb' 0 4), decide_eq_true (hoff (by decide)), rfl, rfl,
      byte_of_halves d _ (hslot rfl)⟩
  · exact ⟨.clrst (d.extractLsb' 0 6), rfl, rfl, (ha (by decide)).symm, byte_of_mask d (hmask rfl)⟩

/-- A word of which none of R37's cases holds is the word of a well-formed operation. -/
theorem exists_encode_of_not_wordIllegal (cap : Nat) (w : EventWord) (h : ¬ wordIllegal cap w) :
    ∃ i, encode i = w ∧ i.wf cap = true := by
  simp only [wordIllegal, not_or, not_and, ne_eq, not_not, not_imp_not, not_le] at h
  obtain ⟨hop, hzero, ha, hd, hslot, hmask, hreg, hoff⟩ := h
  obtain ⟨i, hwf, hop', ha', hd'⟩ := exists_instr_of_fields cap _ _ _ hop ha hd hslot hmask hreg hoff
  exact ⟨i, by rw [encode, hop', ha', hd', wordOf_fields w hzero], hwf⟩

/-- The decoder refuses exactly the words of R37's eight cases. -/
theorem not_wordIllegal_iff (cap : Nat) (w : EventWord) :
    ¬ wordIllegal cap w ↔ ∃ i, decode cap w = .ok i := by
  simp only [decode_eq_ok_iff]
  constructor
  · exact exists_encode_of_not_wordIllegal cap w
  · rintro ⟨i, rfl, hwf⟩
    exact not_wordIllegal_encode cap i hwf

/-- The effect of an illegal word, with the STATUS bit of R19 written out (R37). -/
theorem State.illegalWord_eq_withError (s : State) : s.illegalWord = s.withError 0x10#6 .illCmd := rfl

/-- Settles O3, the words of the eight cases being those the decoder refuses. -/
theorem illegalWordOnlyRecordsIllCmd : Obligations.IllegalWordOnlyRecordsIllCmd := by
  intro s w
  constructor
  · intro hill
    rcases process_cases s w with ⟨i, hdec, -⟩ | ⟨_, -, hproc⟩
    · exact absurd hill ((not_wordIllegal_iff _ w).2 ⟨i, hdec⟩)
    · rw [hproc, State.illegalWord_eq_withError]
  · intro hlegal
    obtain ⟨i, hdec⟩ := (not_wordIllegal_iff _ w).1 hlegal
    exact ⟨i, hdec, process_of_decode s w i hdec⟩

/-- The rx port's word is RXB of its byte (R38). -/
theorem decode_rxWord (cap : Nat) (d : Byte) : decode cap (rxWord d) = .ok (.rxb d) :=
  (decode_eq_ok_iff ..).2 ⟨rfl, rfl⟩

/-- The tick port's word is TICK (R38). -/
theorem decode_tickWord (cap : Nat) : decode cap tickWord = .ok .tick :=
  (decode_eq_ok_iff ..).2 ⟨rfl, rfl⟩

/-- An instant with nothing left on the rx port gives way to the later ones once its other ports are empty (R39). -/
theorem Instant.before_of_rx_none (h : Option EventWord) (t : Bool) (rest : List Instant) :
    Instant.before { reset := false, rx := none, host := h, tick := t } rest =
      if h = none ∧ t = false then rest
      else { reset := false, rx := none, host := h, tick := t } :: rest := by
  simp [Instant.before]

/-- Settles O6: which event an instant gives up first, and what is then left of it. -/
theorem portsTakenRxThenHostThenTick : Obligations.PortsTakenRxThenHostThenTick := by
  intro s rest
  refine ⟨fun d h t hin => ?_, fun w t hin => ?_, fun hin => ?_⟩
  · rw [step_of_take s _ _ rest (rxWord d) hin rfl rfl, Instant.before_of_rx_none]
    exact process_of_decode _ _ _ (decode_rxWord _ d)
  · rw [step_of_take s _ _ rest w hin rfl rfl, Instant.before_of_rx_none]
    simp
  · rw [step_of_take s _ _ rest tickWord hin rfl rfl, Instant.before_of_rx_none]
    exact process_of_decode _ _ _ (decode_tickWord _)

end Sys2Proof.Machine
end

section
/-! The output events (R36): every operation but CLRST sets exactly the STATUS bits of the ERR events it emits (R82),
and emits of the other kinds only its own. -/

namespace Sys2Proof.Machine

/-- The operations that emit an event of its kind; ERR may come from any (R36). -/
def Event.EmittedBy (i : Instr) : Event → Prop
  | .tx _ _ _ => i = .tick
  | .drop _ => i = .tick
  | .getReq => i = .tick
  | .frame _ _ _ => ∃ d, i = .rxb d
  | .ack _ => ∃ d, i = .rxb d
  | .resp _ => (∃ r, i = .rdreg r) ∨ (∃ a, i = .rdstg a) ∨ (∃ a, i = .rdrx a) ∨ ∃ a k, i = .rdslot a k
  | .err _ => True

/-- From `s` to `t` the output grows by events of operation `i`, and STATUS by exactly the bits of those that are ERR. -/
def State.Logs (i : Instr) (s t : State) : Prop :=
  ∃ evs, t.out = s.out ++ evs ∧ (∀ e ∈ evs, e.EmittedBy i) ∧
    ∀ c : ErrCode, t.status.getLsbD c.code = true ↔ s.status.getLsbD c.code = true ∨ .err c ∈ evs

theorem ErrCode.code_lt (c : ErrCode) : c.code < 6 := by cases c <;> decide

theorem ErrCode.code_inj (c e : ErrCode) : c.code = e.code ↔ c = e := by
  cases c <;> cases e <;> decide

/-- Setting an error's bit sets no other error's (R19). -/
theorem getLsbD_statusSet (st : BitVec 6) (c e : ErrCode) :
    (statusSet st c).getLsbD e.code = true ↔ st.getLsbD e.code = true ∨ e = c := by
  have hmask : c.mask.getLsbD e.code = true ↔ e = c := by
    change (BitVec.twoPow 6 c.code).getLsbD e.code = true ↔ _
    simp [c.code_lt, ErrCode.code_inj, eq_comm]
  rw [statusSet, BitVec.getLsbD_or, Bool.or_eq_true, hmask]

/-- Every update that names neither STATUS nor the output. -/
theorem State.logs_of_same {i : Instr} {s t : State} (hout : t.out = s.out) (hstatus : t.status = s.status) :
    s.Logs i t :=
  ⟨[], by rw [hout, List.append_nil], by simp, by simp [hstatus]⟩

/-- An event that is no error, from an operation of its own. -/
theorem State.logs_of_emitted {i : Instr} {s t : State} {e : Event} (hout : t.out = s.out ++ [e])
    (hstatus : t.status = s.status) (he : e.EmittedBy i) (hnoErr : ∀ c, e ≠ .err c) : s.Logs i t := by
  refine ⟨[e], hout, by simpa using he, fun c => ?_⟩
  simp [hstatus, (hnoErr c).symm]

theorem State.logs_of_raised {i : Instr} {s t : State} {c : ErrCode} (hout : t.out = s.out ++ [.err c])
    (hstatus : t.status = statusSet s.status c) : s.Logs i t := by
  refine ⟨[.err c], hout, by simp [Event.EmittedBy], fun e => ?_⟩
  rw [hstatus, getLsbD_statusSet]
  simp

theorem State.logs_raiseError (i : Instr) (s : State) (c : ErrCode) : s.Logs i (s.raiseError c) :=
  State.logs_of_raised rfl rfl

theorem State.logs_trans {i : Instr} {s t u : State} (hst : s.Logs i t) (htu : t.Logs i u) : s.Logs i u := by
  obtain ⟨evs, hout, hfrom, hbits⟩ := hst
  obtain ⟨evs', hout', hfrom', hbits'⟩ := htu
  refine ⟨evs ++ evs', by rw [hout', hout, List.append_assoc], fun e he => ?_, fun c => ?_⟩
  · exact (List.mem_append.1 he).elim (hfrom e) (hfrom' e)
  · rw [hbits', hbits, List.mem_append, or_assoc]

theorem State.logs_ite {i : Instr} {p : Prop} [Decidable p] {s t u : State} (ht : s.Logs i t) (hu : s.Logs i u) :
    s.Logs i (if p then t else u) := by
  split
  · exact ht
  · exact hu

/-- Validation logs its errors one by one (R59). -/
theorem State.logs_recordChecks (i : Instr) (s : State) (n : Nat) : s.Logs i (s.recordChecks n) := by
  have hcrc : s.Logs i (if verifyCrc s.cfg s.rx.buf n then s else s.raiseError .crcErr) :=
    State.logs_ite (State.logs_of_same rfl rfl) (s.logs_raiseError i .crcErr)
  exact State.logs_ite (s.logs_raiseError i .lenErr)
    (State.logs_ite hcrc (State.logs_trans hcrc (State.logs_raiseError i _ .chkErr)))

/-- Handing on emits FRAME, and ACK after it on a match (R58, R67). -/
theorem State.logs_handOn (d : Byte) (s : State) (n : Nat) : s.Logs (.rxb d) (s.handOn n) := by
  have hframe : s.Logs (.rxb d) (s.emit (.frame n (s.rx.buf.bytes 0 n) s.isReport)) :=
    State.logs_of_emitted rfl rfl ⟨d, rfl⟩ (by simp)
  have hack (u : State) : u.Logs (.rxb d) (u.ackMatch n) :=
    State.logs_ite (State.logs_of_emitted rfl rfl ⟨d, rfl⟩ (by simp)) (State.logs_of_same rfl rfl)
  exact State.logs_ite (State.logs_trans hframe (hack _)) hframe

/-- Completion logs what validation and handing on log; clearing the receiver logs nothing (R58). -/
theorem State.logs_complete (d : Byte) (s : State) : s.Logs (.rxb d) s.complete := by
  have hchecks := s.logs_recordChecks (.rxb d) s.rx.len.toNat
  have hhanded := State.logs_ite (p := s.frameValid s.rx.len.toNat = true)
    (State.logs_trans hchecks (State.logs_handOn d _ s.rx.len.toNat)) hchecks
  exact State.logs_trans hhanded (State.logs_of_same rfl rfl)

/-- Completing a frame in a state whose receiver alone was written. -/
theorem State.logs_complete_withRx (d : Byte) (s : State) (r : Receiver) :
    s.Logs (.rxb d) ({ s with rx := r } : State).complete :=
  State.logs_complete d { s with rx := r }

theorem execRxb_logs (s t : State) (d : Byte) (h : execRxb d s = .next t) : s.Logs (.rxb d) t := by
  cases execRxb_outcome s t d h with
  | zeroLength | overlong => exact State.logs_of_raised rfl rfl
  | lengthCompletes | payloadCompletes => exact s.logs_complete_withRx d _
  | ignored | started | lengthTaken | payloadTaken | skippedLast | skipped => exact State.logs_of_same rfl rfl

/-- TICK emits at most one event, GET_REQ, TX or DROP, and records no error (R70). -/
theorem execTick_logs (s t : State) (h : execTick s = .next t) : s.Logs .tick t := by
  unfold execTick at h
  split at h
  · cases h
    exact State.logs_of_emitted rfl rfl rfl (by simp)
  · split at h
    · split at h
      · cases h
      · cases h
        exact State.logs_of_emitted rfl rfl rfl (by simp)
    · split at h
      · cases h
        exact State.logs_of_emitted rfl rfl rfl (by simp)
      · cases h
        exact State.logs_of_same rfl rfl

/-- What `stgAppend_frame` and `execSwr_frame` leave possible for a staging write. -/
theorem State.logs_stagingWrite {i : Instr} {s t : State}
    (h : (∃ g, t = { s with stg := g }) ∨ t = s.raiseError .stgErr) : s.Logs i t := by
  rcases h with ⟨g, rfl⟩ | rfl
  · exact State.logs_of_same rfl rfl
  · exact s.logs_raiseError i .stgErr

theorem execEnq_logs (s t : State) (h : execEnq s = .next t) : s.Logs .enq t := by
  rcases execEnq_frame s t h with ⟨c, rfl⟩ | ⟨-, -, rfl⟩ | ⟨-, -, -, rfl⟩
  · exact s.logs_raiseError .enq c
  · exact State.logs_of_same rfl rfl
  · exact State.logs_of_same rfl rfl

/-- A read answers RESP; beyond the buffer it records ILL_CMD (R77 to R79). -/
theorem State.logs_readByte {i : Instr} (s : State) (m : Memory) (a : Byte) (hread : ∀ v, (Event.resp v).EmittedBy i) :
    s.Logs i (s.readByte m a) := by
  rcases readByte_cases s m a with ⟨-, h⟩ | ⟨-, h⟩ <;> rw [h]
  · exact State.logs_of_emitted rfl rfl (hread _) (by simp)
  · exact s.logs_raiseError i .illCmd

/-- What every operation but CLRST logs. -/
theorem exec_logs (i : Instr) (s t : State) (h : exec i s = .next t) (hnotClrst : ∀ m, i ≠ .clrst m) :
    s.Logs i t := by
  cases i with
  | nop => cases h; exact State.logs_of_same rfl rfl
  | rxb d => exact execRxb_logs s t d h
  | tick => exact execTick_logs s t h
  | sclr => cases h; exact State.logs_of_same rfl rfl
  | spush d => exact State.logs_stagingWrite (stgAppend_frame s t _ h)
  | swr a d => exact State.logs_stagingWrite (execSwr_frame s t a d h)
  | stag d => cases h; exact State.logs_of_same rfl rfl
  | scrc => exact State.logs_stagingWrite (stgAppend_frame s t _ h)
  | schk => exact State.logs_stagingWrite (stgAppend_frame s t _ h)
  | sver =>
    obtain ⟨_, rfl⟩ := execSver_frame s t h
    exact State.logs_of_same rfl rfl
  | enq => exact execEnq_logs s t h
  | rdreg r => cases h; exact State.logs_of_emitted rfl rfl (.inl ⟨r, rfl⟩) (by simp)
  | rdstg a => cases h; exact s.logs_readByte _ a fun _ => .inr (.inl ⟨a, rfl⟩)
  | rdrx a => cases h; exact s.logs_readByte _ a fun _ => .inr (.inr (.inl ⟨a, rfl⟩))
  | rdslot a k => cases h; exact s.logs_readByte _ a fun _ => .inr (.inr (.inr ⟨a, k, rfl⟩))
  | clrst m => exact absurd rfl (hnotClrst m)

/-- CLRST clears STATUS bits, sets none and emits nothing (R80). -/
theorem execClrst_effect (m : BitVec 6) (s t : State) (h : execClrst m s = .next t) :
    t.out = s.out ∧ ∀ k, t.status.getLsbD k = true → s.status.getLsbD k = true := by
  cases h
  refine ⟨rfl, fun k hk => ?_⟩
  simp only [statusClear, BitVec.getLsbD_and, Bool.and_eq_true] at hk
  exact hk.1

/-- Settles O17: what CLRST does (`execClrst_effect`), and every other operation (`exec_logs`). -/
theorem errEventsMatchStatusBits : Obligations.ErrEventsMatchStatusBits := by
  intro i s t h
  by_cases hclrst : ∃ m, i = .clrst m
  · obtain ⟨m, rfl⟩ := hclrst
    obtain ⟨hout, hbits⟩ := execClrst_effect m s t h
    refine ⟨[], by rw [hout, List.append_nil], fun c => ⟨fun hmem => by simp at hmem, fun hset hclear => ?_⟩⟩
    exact absurd (hbits _ hset) (Bool.eq_false_iff.1 hclear)
  · obtain ⟨evs, hout, -, hbits⟩ := exec_logs i s t h (not_exists.1 hclrst)
    refine ⟨evs, hout, fun c => ⟨fun hmem => (hbits c).2 (.inr hmem), fun hset hclear => ?_⟩⟩
    exact ((hbits c).1 hset).resolve_left (Bool.eq_false_iff.1 hclear)

/-- Settles O19: the events a step appends are those of `exec_logs`, and CLRST appends none. -/
theorem eventsComeFromTheirOperations : Obligations.EventsComeFromTheirOperations := by
  intro i s t evs h hout e he
  change e.EmittedBy i
  by_cases hclrst : ∃ m, i = .clrst m
  · obtain ⟨m, rfl⟩ := hclrst
    obtain ⟨hsame, -⟩ := execClrst_effect m s t h
    have hnone : evs = [] := List.self_eq_append_right.1 (hsame.symm.trans hout)
    simp [hnone] at he
  · obtain ⟨evs', hout', hfrom, -⟩ := exec_logs i s t h (not_exists.1 hclrst)
    have hsame : evs = evs' := List.append_cancel_left (hout.symm.trans hout')
    exact hfrom e (hsame ▸ he)

end Sys2Proof.Machine
end

section
/-! The codec's functions (40_codec.md): the CRC and the checksum of a range (R42, R43, R45), and what a byte
written behind the range does to them. -/

namespace Sys2Proof.Machine

/-- Over an empty range the CRC is its start value (R42). -/
theorem crc8_empty (c : Config) (m : Memory) (lo hi : Nat) (h : hi ≤ lo) : crc8 c m lo hi = c.crcInit := by
  rw [crc8, Memory.bytes_empty m lo hi h, List.foldl_nil]

/-- One byte more in the range is one table step (R42). -/
theorem crc8_concat (c : Config) (m : Memory) (lo hi : Nat) (h : lo ≤ hi) :
    crc8 c m lo (hi + 1) = c.crcEntry (crc8 c m lo hi ^^^ m.read hi) := by
  rw [crc8, Memory.bytes_succ m lo hi h, List.foldl_concat, crc8]

/-- Settles O20. -/
theorem crcFollowsTheTable : Obligations.CrcFollowsTheTable :=
  fun c m lo hi => ⟨crc8_empty c m lo hi, crc8_concat c m lo hi⟩

/-- Settles O21: the last table step looks up entry 0, which is 0x00 in every table (R6). -/
theorem crcOfDataAndItsCrcIsZero : Obligations.CrcOfDataAndItsCrcIsZero := by
  intro c m lo k hle hcrc
  rw [crc8_concat c m lo k hle, hcrc, BitVec.xor_self]
  exact c.crcEntry_zero

/-- The byte sum as the statements write it, without naming the list of bytes. -/
theorem byteSum_eq_sum_reads (m : Memory) (lo hi : Nat) :
    byteSum m lo hi = ((List.range' lo (hi - lo)).map (fun i => (m.read i).toNat)).sum := by
  rw [byteSum, Memory.bytes, List.map_map]
  rfl

theorem byteSum_empty (m : Memory) (lo hi : Nat) (h : hi ≤ lo) : byteSum m lo hi = 0 := by
  rw [byteSum, Memory.bytes_empty m lo hi h, List.map_nil, List.sum_nil]

theorem checksum8_toNat (m : Memory) (lo hi : Nat) :
    (checksum8 m lo hi).toNat = (256 - byteSum m lo hi % 256) % 256 := by
  rw [checksum8, BitVec.toNat_ofNat, Nat.mod_mod]

theorem checksum8_empty (m : Memory) (lo hi : Nat) (h : hi ≤ lo) : checksum8 m lo hi = 0 := by
  rw [checksum8, byteSum_empty m lo hi h]
  rfl

/-- The checksum completes the sum to a multiple of 256 (R45). -/
theorem byteSum_add_checksum8 (m : Memory) (lo hi : Nat) :
    (byteSum m lo hi + (checksum8 m lo hi).toNat) % 256 = 0 := by
  rw [checksum8_toNat]
  omega

/-- Settles O22. -/
theorem checksumClosesTheSum : Obligations.ChecksumClosesTheSum := by
  intro m lo hi sum
  have hsum : byteSum m lo hi = sum := byteSum_eq_sum_reads m lo hi
  rw [← hsum]
  exact ⟨checksum8_toNat m lo hi, checksum8_empty m lo hi, byteSum_add_checksum8 m lo hi⟩

/-- A byte written behind a range is not in its CRC. -/
theorem crc8_write_behind (c : Config) (m : Memory) (lo hi k : Nat) (v : Byte) (h : hi ≤ k) :
    crc8 c (m.write k v) lo hi = crc8 c m lo hi :=
  crc8_congr c _ m lo hi (fun _ _ hi' => Memory.read_write_ne m k _ v (by omega))

/-- A byte written behind a range is not in its sum. -/
theorem byteSum_write_behind (m : Memory) (lo hi k : Nat) (v : Byte) (h : hi ≤ k) :
    byteSum (m.write k v) lo hi = byteSum m lo hi :=
  byteSum_congr _ m lo hi (fun _ _ hi' => Memory.read_write_ne m k _ v (by omega))

/-- Writing its CRC behind a range makes the CRC of the longer range 0x00 (R43). -/
theorem crc8_write_own_crc (c : Config) (m : Memory) (lo k : Nat) (hwf : m.wf = true) (hle : lo ≤ k) :
    crc8 c (m.write k (crc8 c m lo k)) lo (k + 1) = 0 := by
  refine crcOfDataAndItsCrcIsZero c _ lo k hle ?_
  rw [Memory.read_write_same m k _ hwf, crc8_write_behind c m lo k k _ le_rfl]

/-- Writing its checksum behind a range makes the sum of the longer range 0 mod 256 (R45). -/
theorem byteSum_write_own_checksum (m : Memory) (lo k : Nat) (hwf : m.wf = true) (hle : lo ≤ k) :
    byteSum (m.write k (checksum8 m lo k)) lo (k + 1) % 256 = 0 := by
  rw [byteSum_concat _ lo k hle, byteSum_write_behind m lo k k _ le_rfl, Memory.read_write_same m k _ hwf]
  exact byteSum_add_checksum8 m lo k

/-- A shift of the MAXIM loop (R44) loses no byte but 0x00: 0x8C sets the top bit, which a shift to the right clears. -/
theorem maximShift_eq_zero : ∀ c : Byte, maximShift c = 0 → c = 0 := by decide

theorem foldl_maximShift_eq_zero (l : List Nat) (c : Byte) (h : l.foldl (fun c _ => maximShift c) c = 0) : c = 0 := by
  induction l generalizing c with
  | nil => exact h
  | cons _ l ih => exact maximShift_eq_zero c (ih _ h)

theorem maximLoop_eq_zero (b : Byte) (h : maximLoop b = 0) : b = 0 :=
  foldl_maximShift_eq_zero _ b h

/-- The printed table agrees with the loop of R44, entry by entry. -/
theorem crcEntry_default : ∀ b : Byte, Config.default.crcEntry b = maximLoop b := by decide

/-- Settles O23. -/
theorem defaultTableIsMaxim : Obligations.DefaultTableIsMaxim :=
  ⟨crcEntry_default, fun b h => maximLoop_eq_zero b ((crcEntry_default b).symm.trans h), by decide⟩

end Sys2Proof.Machine
end

section
/-! The staging operations (R47 to R53): the effect of appending a byte and of SVER, said once, and each operation as a
case of them. -/

namespace Sys2Proof.Machine

/-- The staging frame one byte longer (R48). -/
def Staging.append (g : Staging) (d : Byte) : Staging :=
  { g with buf := g.buf.write g.len.toNat d, len := g.len + 1 }

theorem Staging.append_read_same (g : Staging) (d : Byte) (hwf : g.buf.wf = true) :
    (g.append d).buf.read g.len.toNat = d :=
  Memory.read_write_same g.buf _ d hwf

theorem Staging.append_read_ne (g : Staging) (d : Byte) (a : Nat) (h : a ≠ g.len.toNat) :
    (g.append d).buf.read a = g.buf.read a :=
  Memory.read_write_ne g.buf _ a d h

theorem Staging.append_wf (g : Staging) (d : Byte) (hwf : g.buf.wf = true) : (g.append d).buf.wf = true :=
  Memory.wf_write g.buf _ d hwf

/-- The 9-bit length does not wrap: a frame with room is shorter than 256 bytes (R6). -/
theorem Staging.append_len_toNat (g : Staging) (c : Config) (d : Byte) (h : g.len.toNat < c.frameCap) :
    (g.append d).len.toNat = g.len.toNat + 1 := by
  obtain ⟨-, hhigh⟩ := c.frameCap_bounds
  exact len_succ_toNat g.len (by omega)

theorem stgAppend_of_full (s : State) (d : Byte) (h : s.stg.len.toNat = s.cfg.frameCap) :
    s.stgAppend d = .next (s.withError 0x20#6 .stgErr) :=
  if_pos h

/-- Where there is room, an append writes the staging frame and nothing else. -/
theorem stgAppend_of_room (s : State) (d : Byte) (h : s.stg.len.toNat < s.cfg.frameCap) :
    s.stgAppend d = .next { s with stg := s.stg.append d } :=
  (if_neg (by omega)).trans (if_neg (by omega))

/-- What an append with room answers, read off the buffer. -/
theorem stgAppend_reads (s : State) (d : Byte) (hwf : s.stg.buf.wf = true) (h : s.stg.len.toNat < s.cfg.frameCap) :
    ∃ b n, s.stgAppend d = .next { s with stg := { s.stg with buf := b, len := n } } ∧
      n.toNat = s.stg.len.toNat + 1 ∧ b.read s.stg.len.toNat = d ∧
      ∀ a, a ≠ s.stg.len.toNat → b.read a = s.stg.buf.read a :=
  ⟨_, _, stgAppend_of_room s d h, s.stg.append_len_toNat s.cfg d h, s.stg.append_read_same d hwf,
    s.stg.append_read_ne d⟩

/-- Settles O25. -/
theorem spushAppendsByte : Obligations.SpushAppendsByte :=
  fun s d hwf => ⟨decodeEncodeAgree _ (.spush d) rfl, stgAppend_of_full s d, stgAppend_reads s d hwf⟩

/-- Settles O26. -/
theorem swrOverwritesByte : Obligations.SwrOverwritesByte := by
  intro s a d hwf hlen
  refine ⟨decodeEncodeAgree _ (.swr a d) rfl, fun hbeyond => if_pos hbeyond, fun hbelow => ?_⟩
  exact ⟨s.stg.buf.write a.toNat d, (if_neg (by omega)).trans (if_neg (by omega)),
    Memory.read_write_same _ _ d hwf, fun x hx => Memory.read_write_ne _ _ x d hx⟩

/-- The staging frame with the CRC of its bytes from offset 10 behind it (R50). -/
def Staging.withCrc (c : Config) (g : Staging) : Staging := g.append (crc8 c g.buf 10 g.len.toNat)

/-- The staging frame with the checksum of its bytes from offset 1 behind it (R51). -/
def Staging.withChecksum (g : Staging) : Staging := g.append (checksum8 g.buf 1 g.len.toNat)

theorem execScrc_of_room (s : State) (h : s.stg.len.toNat < s.cfg.frameCap) :
    exec .scrc s = .next { s with stg := s.stg.withCrc s.cfg } :=
  stgAppend_of_room s _ h

theorem execSchk_of_room (s : State) (h : s.stg.len.toNat < s.cfg.frameCap) :
    exec .schk s = .next { s with stg := s.stg.withChecksum } :=
  stgAppend_of_room s _ h

/-- After SCRC the CRC of the bytes from offset 10 is 0x00 (R43, R50). -/
theorem Staging.crc8_withCrc (c : Config) (g : Staging) (hwf : g.buf.wf = true) (hlen : 10 ≤ g.len.toNat) :
    crc8 c (g.withCrc c).buf 10 (g.len.toNat + 1) = 0 :=
  crc8_write_own_crc c g.buf 10 g.len.toNat hwf hlen

/-- Settles O27: the second SCRC appends the CRC of data and their own CRC (`Staging.crc8_withCrc`). -/
theorem scrcAppendsCrc : Obligations.ScrcAppendsCrc := by
  intro s hwf
  refine ⟨decodeEncodeAgree _ .scrc rfl, stgAppend_of_full s _, fun hroom => ?_⟩
  have hlen := s.stg.append_len_toNat s.cfg (crc8 s.cfg s.stg.buf 10 s.stg.len.toNat) hroom
  have hsame := s.stg.append_read_same (crc8 s.cfg s.stg.buf 10 s.stg.len.toNat) hwf
  refine ⟨_, _, execScrc_of_room s hroom, hlen, hsame, fun hempty => ?_, s.stg.append_read_ne _,
    fun hstart hroom' => ?_⟩
  · exact hsame.trans (crc8_empty _ _ _ _ hempty)
  · refine ⟨_, execScrc_of_room _ (hlen.trans_lt hroom'), ?_⟩
    rw [← hlen, ← s.stg.crc8_withCrc s.cfg hwf hstart, ← hlen]
    exact Staging.append_read_same _ _ (s.stg.append_wf _ hwf)

/-- Settles O28. -/
theorem schkAppendsChecksum : Obligations.SchkAppendsChecksum := by
  intro s hwf
  refine ⟨decodeEncodeAgree _ .schk rfl, stgAppend_of_full s _, fun hroom => ?_⟩
  obtain ⟨b, n, hexec, hlen, hsame, hother⟩ := stgAppend_reads s (checksum8 s.stg.buf 1 s.stg.len.toNat) hwf hroom
  exact ⟨b, n, hexec, hlen, hsame, fun hempty => hsame.trans (checksum8_empty _ _ _ hempty), hother⟩

/-- Settles O24. -/
theorem sclrClearsStagingFrame : Obligations.SclrClearsStagingFrame :=
  fun _ => ⟨decodeEncodeAgree _ .sclr rfl, _, rfl, Memory.read_nil, rfl, rfl⟩

/-- Settles O29. -/
theorem stagSetsTag : Obligations.StagSetsTag :=
  fun _ d => ⟨decodeEncodeAgree _ (.stag d) rfl, rfl⟩

/-- The four bits of VERIFY, DONE, CRC_OK, CHK_OK and LEN_OK from bit 0 up (R20). -/
theorem getLsbD_verifyWord : ∀ crcOk chkOk lenOk : Bool,
    (verifyWord crcOk chkOk lenOk).getLsbD 0 = true ∧ (verifyWord crcOk chkOk lenOk).getLsbD 1 = crcOk ∧
    (verifyWord crcOk chkOk lenOk).getLsbD 2 = chkOk ∧ (verifyWord crcOk chkOk lenOk).getLsbD 3 = lenOk := by
  decide

/-- What SVER does on a frame of legal length, each bit by what it says of the bytes (R46, R53). -/
theorem execSver_of_legal (s : State) (h : s.stg.len.toNat ≤ s.cfg.frameCap) :
    ∃ v : BitVec 4, exec .sver s = .next { s with verify := v } ∧ v.getLsbD 0 = true ∧
      (v.getLsbD 1 = true ↔ crc8 s.cfg s.stg.buf 10 (s.stg.len.toNat - 1) = 0) ∧
      (v.getLsbD 2 = true ↔ byteSum s.stg.buf 1 s.stg.len.toNat % 256 = 0) ∧
      (v.getLsbD 3 = true ↔ 13 ≤ s.stg.len.toNat) := by
  obtain ⟨hdone, hcrc, hchk, hlen⟩ := getLsbD_verifyWord (verifyCrc s.cfg s.stg.buf s.stg.len.toNat)
    (verifyChecksum s.stg.buf s.stg.len.toNat) (decide (minRxLen ≤ s.stg.len.toNat))
  refine ⟨_, if_neg (Nat.not_lt.2 h), hdone, ?_, ?_, ?_⟩
  · rw [hcrc]; exact decide_eq_true_iff
  · rw [hchk]; exact decide_eq_true_iff
  · rw [hlen]; exact decide_eq_true_iff

/-- Settles O30. -/
theorem sverWritesVerify : Obligations.SverWritesVerify := by
  intro s hlegal
  rw [← byteSum_eq_sum_reads s.stg.buf 1 s.stg.len.toNat]
  exact ⟨decodeEncodeAgree _ .sver rfl, execSver_of_legal s hlegal⟩

/-- The staging frame after SCRC and SCHK. -/
def Staging.sealed (c : Config) (g : Staging) : Staging := (g.withCrc c).withChecksum

section
variable (c : Config) (g : Staging)

theorem Staging.withCrc_len_toNat (hroom : g.len.toNat + 2 ≤ c.frameCap) :
    (g.withCrc c).len.toNat = g.len.toNat + 1 :=
  g.append_len_toNat c _ (by omega)

theorem Staging.sealed_len_toNat (hroom : g.len.toNat + 2 ≤ c.frameCap) :
    (g.sealed c).len.toNat = g.len.toNat + 2 := by
  have hcrc := g.withCrc_len_toNat c hroom
  rw [Staging.sealed, Staging.withChecksum, Staging.append_len_toNat _ c _ (by omega), hcrc]

/-- Sealing leaves the frame's own bytes. -/
theorem Staging.sealed_read (hroom : g.len.toNat + 2 ≤ c.frameCap) (a : Nat) (ha : a < g.len.toNat) :
    (g.sealed c).buf.read a = g.buf.read a := by
  have hcrc := g.withCrc_len_toNat c hroom
  calc (g.sealed c).buf.read a
    _ = (g.withCrc c).buf.read a := Staging.append_read_ne _ _ a (by omega)
    _ = g.buf.read a := Staging.append_read_ne _ _ a (by omega)

/-- The checksum byte stands behind the range of the CRC, which ends with the CRC byte. -/
theorem Staging.crc8_sealed (hwf : g.buf.wf = true) (hlen : 10 ≤ g.len.toNat) (hroom : g.len.toNat + 2 ≤ c.frameCap) :
    crc8 c (g.sealed c).buf 10 ((g.sealed c).len.toNat - 1) = 0 := by
  rw [g.sealed_len_toNat c hroom, ← g.crc8_withCrc c hwf hlen]
  exact crc8_write_behind c _ 10 _ _ _ (g.withCrc_len_toNat c hroom).ge

/-- The checksum is the last byte written, over all bytes before it, the CRC included. -/
theorem Staging.byteSum_sealed (hwf : g.buf.wf = true) (hroom : g.len.toNat + 2 ≤ c.frameCap) :
    byteSum (g.sealed c).buf 1 (g.sealed c).len.toNat % 256 = 0 := by
  have hcrc := g.withCrc_len_toNat c hroom
  have hend : (g.sealed c).len.toNat = (g.withCrc c).len.toNat + 1 := by rw [g.sealed_len_toNat c hroom, hcrc]
  rw [hend]
  exact byteSum_write_own_checksum _ 1 _ (g.append_wf _ hwf) (by omega)

end

theorem runAll_cons_of_next (i : Instr) (is : List Instr) (s t : State) (h : exec i s = .next t) :
    runAll (i :: is) s = runAll is t := by
  rw [runAll, h]

/-- Running SCRC and SCHK with room for both bytes seals the staging frame and touches nothing else. -/
theorem runAll_seal (is : List Instr) (s : State) (hroom : s.stg.len.toNat + 2 ≤ s.cfg.frameCap) :
    runAll (.scrc :: .schk :: is) s = runAll is { s with stg := s.stg.sealed s.cfg } := by
  have hcrc := s.stg.withCrc_len_toNat s.cfg hroom
  rw [runAll_cons_of_next _ _ _ _ (execScrc_of_room s (by omega))]
  exact runAll_cons_of_next _ _ _ _ (execSchk_of_room _ (by dsimp only; omega))

/-- Settles O31: SVER, run on the sealed frame, finds the CRC (`Staging.crc8_sealed`) and the sum
(`Staging.byteSum_sealed`) to be zero. -/
theorem sealThenVerifySucceeds : Obligations.SealThenVerifySucceeds := by
  intro s hwf hstart hroom
  have hlen := s.stg.sealed_len_toNat s.cfg hroom
  obtain ⟨v, hexec, hdone, hcrcOk, hchkOk, hlenOk⟩ :=
    execSver_of_legal { s with stg := s.stg.sealed s.cfg } (hlen.trans_le hroom)
  refine ⟨{ s with stg := s.stg.sealed s.cfg, verify := v }, ?_, hdone, ?_, ?_, ?_, hlen,
    s.stg.sealed_read s.cfg hroom, rfl⟩
  · rw [runAll_seal _ s hroom, runAll_cons_of_next _ _ _ _ hexec, runAll]
  · exact hcrcOk.2 (s.stg.crc8_sealed s.cfg hwf hstart hroom)
  · exact hchkOk.2 (s.stg.byteSum_sealed s.cfg hwf hroom)
  · dsimp only at hlenOk ⊢
    rw [hlenOk, hlen]
    omega

end Sys2Proof.Machine
end

section
/-! Frame completion (41_receiver.md): what validation records (R59), how a valid frame is handed on (R60, R61), and
completion as a case of them (R58). -/

namespace Sys2Proof.Machine

theorem verifyCrc_iff (c : Config) (m : Memory) (n : Nat) : verifyCrc c m n = true ↔ crc8 c m 10 (n - 1) = 0 :=
  decide_eq_true_iff

theorem verifyChecksum_iff (m : Memory) (n : Nat) : verifyChecksum m n = true ↔ byteSum m 1 n % 256 = 0 :=
  decide_eq_true_iff

/-- A frame passes validation when it is long enough and both checks pass (R59). -/
theorem State.frameValid_iff (s : State) (n : Nat) :
    s.frameValid n = true ↔ 13 ≤ n ∧ crc8 s.cfg s.rx.buf 10 (n - 1) = 0 ∧ byteSum s.rx.buf 1 n % 256 = 0 := by
  rw [State.frameValid, Bool.and_eq_true, Bool.and_eq_true, decide_eq_true_iff, verifyCrc_iff, verifyChecksum_iff,
    and_assoc]

/-- A short frame is not checked further (R59). -/
theorem State.recordChecks_of_short (s : State) (n : Nat) (h : n < 13) :
    s.recordChecks n = s.withError 0x04#6 .lenErr :=
  if_pos h

/-- The checks of a frame that is long enough: both run, the CRC's error first (R59). -/
theorem State.recordChecks_of_long (s : State) (n : Nat) (h : 13 ≤ n) :
    s.recordChecks n =
      let s1 := if crc8 s.cfg s.rx.buf 10 (n - 1) = 0 then s else s.withError 0x01#6 .crcErr
      if byteSum s.rx.buf 1 n % 256 = 0 then s1 else s1.withError 0x02#6 .chkErr := by
  simp only [← verifyCrc_iff, ← verifyChecksum_iff]
  exact if_neg (Nat.not_lt.2 h)

/-- An invalid frame is discarded: its errors are recorded and the receiver is cleared (R58, R59). -/
theorem complete_of_invalid (s : State)
    (h : ¬ (13 ≤ s.rx.len.toNat ∧ crc8 s.cfg s.rx.buf 10 (s.rx.len.toNat - 1) = 0 ∧
      byteSum s.rx.buf 1 s.rx.len.toNat % 256 = 0)) :
    s.complete =
      { s.recordChecks s.rx.len.toNat with rx := { phase := .idle, buf := [], len := 0, rem := 0 } } := by
  rw [← State.frameValid_iff] at h
  rw [State.complete]
  simp only [if_neg h]
  rfl

/-- A valid frame records no error: it is handed on and the receiver is cleared (R58, R59). -/
theorem complete_of_valid (s : State) (hlen : 13 ≤ s.rx.len.toNat)
    (hcrc : crc8 s.cfg s.rx.buf 10 (s.rx.len.toNat - 1) = 0) (hchk : byteSum s.rx.buf 1 s.rx.len.toNat % 256 = 0) :
    s.complete = { s.handOn s.rx.len.toNat with rx := { phase := .idle, buf := [], len := 0, rem := 0 } } := by
  have hvalid := (s.frameValid_iff _).2 ⟨hlen, hcrc, hchk⟩
  have hnone : s.recordChecks s.rx.len.toNat = s := by
    rw [State.recordChecks_of_long s _ hlen, if_pos hchk, if_pos hcrc]
  rw [State.complete]
  simp only [if_pos hvalid, hnone]
  rfl

/-- A frame that is no report is handed on by FRAME alone (R60). -/
theorem State.handOn_of_not_report (s : State) (n : Nat) (h : s.rx.buf.read 10 ≠ 0xC0#8) :
    s.handOn n = s.emit (.frame n (s.rx.buf.bytes 0 n) false) := by
  have hrep : s.isReport = false := decide_eq_false h
  rw [State.handOn, hrep]
  rfl

/-- A report is handed on by FRAME and then offered to the acknowledgement match (R61). -/
theorem State.handOn_of_report (s : State) (n : Nat) (h : s.rx.buf.read 10 = 0xC0#8) :
    s.handOn n = (s.emit (.frame n (s.rx.buf.bytes 0 n) true)).ackMatch n := by
  have hrep : s.isReport = true := decide_eq_true h
  rw [State.handOn, hrep]
  rfl

theorem State.ackMatch_of_match (s : State) (n : Nat)
    (h : s.q.empty = false ∧ 33 ≤ n ∧ (s.q.slot s.q.head).buf.read 32 = s.rx.buf.read 32) :
    s.ackMatch n = { s.emit (.ack s.q.head) with q := s.q.retireHead } :=
  if_pos ((ackMatches_iff s n).2 h)

theorem State.ackMatch_of_no_match (s : State) (n : Nat)
    (h : ¬ (s.q.empty = false ∧ 33 ≤ n ∧ (s.q.slot s.q.head).buf.read 32 = s.rx.buf.read 32)) :
    s.ackMatch n = s :=
  if_neg (mt (ackMatches_iff s n).1 h)

/-- Settles O37: which way a valid frame is handed on. -/
theorem validFrameIsHandedOn : Obligations.ValidFrameIsHandedOn := by
  intro s n cleared acks hlen hcrc hchk
  rw [complete_of_valid s hlen hcrc hchk]
  refine ⟨fun hdata => ?_, fun hreport hno => ?_, fun hreport hmatch => ?_⟩
  · rw [State.handOn_of_not_report s _ hdata]
    rfl
  · rw [State.handOn_of_report s _ hreport, State.ackMatch_of_no_match (s.emit _) _ hno]
    rfl
  · rw [State.handOn_of_report s _ hreport, State.ackMatch_of_match (s.emit _) _ hmatch]
    simp only [State.emit, List.append_assoc]
    rfl

/-- Settles O36: what each outcome of the three checks records, and what `handOn_cases` leaves for a valid frame. -/
theorem completedFrameIsValidated : Obligations.CompletedFrameIsValidated := by
  intro s n crcBad chkBad
  refine ⟨fun hshort => ?_, fun hlong hcrc hchk => ?_, fun hlong hcrc hchk => ?_, fun hlong hcrc hchk => ?_,
    fun hlong hcrc hchk => ?_⟩
  · rw [complete_of_invalid s (fun h => absurd h.1 (by omega)), State.recordChecks_of_short s _ hshort]
  · rw [complete_of_invalid s (fun h => hcrc h.2.1), State.recordChecks_of_long s _ hlong, if_neg hcrc,
      if_pos (not_not.1 hchk)]
  · rw [complete_of_invalid s (fun h => hchk h.2.2), State.recordChecks_of_long s _ hlong, if_pos (not_not.1 hcrc),
      if_neg hchk]
  · rw [complete_of_invalid s (fun h => hcrc h.2.1), State.recordChecks_of_long s _ hlong, if_neg hcrc,
      if_neg hchk]
  · rw [complete_of_valid s hlong (not_not.1 hcrc) (not_not.1 hchk)]
    rcases handOn_cases s n with h | ⟨-, -, h⟩ <;> rw [h]
    · exact ⟨s.q, _, rfl, by simp, _, List.mem_singleton_self _⟩
    · exact ⟨s.q.retireHead, _, rfl, by simp, true, List.mem_cons_self⟩

end Sys2Proof.Machine
end

section
/-! RXB by the receiver's phase (R54 to R57), each as what it makes of the receiver, and RDRX (R78). -/

namespace Sys2Proof.Machine

section
variable (s : State) (d : Byte)

theorem exec_rxb_of_idle (h : s.rx.phase = .idle) : exec (.rxb d) s = .next (s.rxbIdle d) := by
  simp [exec, execRxb, h]

theorem exec_rxb_of_len (h : s.rx.phase = .len) : exec (.rxb d) s = .next (s.rxbLen d) := by
  simp [exec, execRxb, h]

theorem exec_rxb_of_payload (h : s.rx.phase = .payload) : exec (.rxb d) s = s.rxbPayload d := by
  simp [exec, execRxb, h]

theorem exec_rxb_of_discard (h : s.rx.phase = .discard) : exec (.rxb d) s = s.rxbDiscard := by
  simp [exec, execRxb, h]

/-- The start marker begins a frame, whatever the receiver held (R54). -/
theorem State.rxbIdle_marker :
    s.rxbIdle 0xAA#8 = { s with rx := { phase := .len, buf := Memory.write [] 0 0xAA#8, len := 1, rem := 0 } } :=
  rfl

theorem State.rxbIdle_of_ne_marker (h : d ≠ 0xAA#8) : s.rxbIdle d = s := if_neg h

theorem State.rxbLen_zero :
    s.rxbLen 0 = { s.withError 0x04#6 .lenErr with rx := { phase := .idle, buf := [], len := 0, rem := 0 } } :=
  rfl

/-- A length byte that does not fit: LEN_ERR, and L - 1 bytes to skip (R55). -/
theorem State.rxbLen_of_overlong (h : s.cfg.frameCap < d.toNat + 1) :
    s.rxbLen d =
      { s.withError 0x04#6 .lenErr with rx := { phase := .discard, buf := [], len := 0, rem := d - 1 } } := by
  obtain ⟨hlow, -⟩ := s.cfg.frameCap_bounds
  have hzero : d ≠ 0 := by
    rintro rfl
    have : (0 : Byte).toNat = 0 := rfl
    omega
  exact (if_neg hzero).trans (if_pos h)

/-- The length byte 1 completes a frame of 2 bytes (R55). -/
theorem State.rxbLen_one :
    s.rxbLen 1 = ({ s with rx := { s.rx with buf := s.rx.buf.write 1 1, len := 2 } } : State).complete := by
  obtain ⟨hlow, -⟩ := s.cfg.frameCap_bounds
  have hfits : ¬ s.cfg.frameCap < (1 : Byte).toNat + 1 := by
    have : (1 : Byte).toNat = 1 := rfl
    omega
  exact (if_neg (by decide)).trans ((if_neg hfits).trans (if_pos rfl))

/-- Any other length byte is stored, and L - 1 bytes are to be collected (R55). -/
theorem State.rxbLen_of_fits (hlow : 2 ≤ d.toNat) (hcap : d.toNat + 1 ≤ s.cfg.frameCap) :
    s.rxbLen d =
      { s with rx := { phase := .payload, buf := s.rx.buf.write 1 d, len := 2, rem := d - 1 } } :=
  (if_neg (by bv_omega)).trans ((if_neg (by omega)).trans (if_neg (by bv_omega)))

/-- The receiver with one payload byte more and one outstanding byte less (R56). -/
def Receiver.collect (r : Receiver) (d : Byte) : Receiver :=
  { phase := .payload, buf := r.buf.write r.len.toNat d, len := r.len + 1, rem := r.rem - 1 }

/-- A payload byte is collected, and the last one completes the frame (R56). -/
theorem State.rxbPayload_eq_collect (hphase : s.rx.phase = .payload) (hlen : s.rx.len.toNat < s.cfg.frameCap)
    (hrem : s.rx.rem ≠ 0) :
    s.rxbPayload d = .next (if s.rx.rem = 1 then ({ s with rx := s.rx.collect d } : State).complete
      else { s with rx := s.rx.collect d }) := by
  have hlast : s.rx.rem - 1 = 0 ↔ s.rx.rem = 1 := sub_eq_zero
  rw [State.rxbPayload, if_neg hrem, if_neg (Nat.not_le.2 hlen)]
  simp only [hlast, hphase]
  rfl

/-- A byte is skipped, and the last one returns to IDLE (R57). -/
theorem State.rxbDiscard_eq_skip (hphase : s.rx.phase = .discard) (hrem : s.rx.rem ≠ 0) :
    s.rxbDiscard = .next { s with rx := { s.rx with
      rem := s.rx.rem - 1, phase := if s.rx.rem = 1 then .idle else .discard } } := by
  have hlast : s.rx.rem - 1 = 0 ↔ s.rx.rem = 1 := sub_eq_zero
  rw [State.rxbDiscard, if_neg hrem]
  simp only [hlast]
  split
  · rfl
  · rw [← hphase]

end

theorem rem_pred_toNat (r : BitVec 8) (h : r ≠ 0) : (r - 1).toNat = r.toNat - 1 := by
  bv_omega

/-- Settles O32. -/
theorem rxbInIdle : Obligations.RxbInIdle := by
  intro s d hphase
  rw [exec_rxb_of_idle s d hphase]
  refine ⟨decodeEncodeAgree _ (.rxb d) rfl, ?_, fun hother => by rw [s.rxbIdle_of_ne_marker d hother]⟩
  rintro rfl
  refine ⟨_, by rw [State.rxbIdle_marker], Memory.read_write_same [] 0 _ rfl, fun a ha => ?_⟩
  exact Memory.read_write_ne [] 0 a _ ha

/-- Settles O33; the frame that the length byte 1 completes is a short one (R59). -/
theorem rxbInLen : Obligations.RxbInLen := by
  intro s d hphase hwf
  rw [exec_rxb_of_len s d hphase]
  refine ⟨?_, fun _ hlong => by rw [s.rxbLen_of_overlong d hlong], ?_, fun hlow hcap => ?_⟩
  · rintro rfl
    rw [State.rxbLen_zero]
  · rintro rfl
    rw [State.rxbLen_one]
    exact congrArg _ ((completedFrameIsValidated _).1 (show 2 < 13 by decide))
  · exact ⟨_, by rw [s.rxbLen_of_fits d hlow hcap], Memory.read_write_same _ 1 d hwf,
      fun a ha => Memory.read_write_ne _ 1 a d ha⟩

/-- Settles O34. -/
theorem rxbInPayload : Obligations.RxbInPayload := by
  intro s d hphase hwf hlen hrem
  obtain ⟨-, hcap⟩ := s.cfg.frameCap_bounds
  refine ⟨_, _, _, Memory.read_write_same _ _ d hwf, fun a ha => Memory.read_write_ne _ _ a d ha,
    len_succ_toNat s.rx.len (by omega), rem_pred_toNat s.rx.rem hrem, ?_⟩
  exact (exec_rxb_of_payload s d hphase).trans (s.rxbPayload_eq_collect d hphase hlen hrem)

/-- Settles O35. -/
theorem rxbInDiscard : Obligations.RxbInDiscard := by
  intro s d hphase hrem
  exact ⟨_, rem_pred_toNat s.rx.rem hrem,
    (exec_rxb_of_discard s d hphase).trans (s.rxbDiscard_eq_skip hphase hrem)⟩

/-- A read word whose offset lies beyond the buffer is illegal (R37 case 8, R77 to R79). -/
theorem process_of_offset_beyond_cap (s : State) (op a d : Byte) (hop : op ∈ [0x21#8, 0x22#8, 0x23#8])
    (ha : s.cfg.frameCap ≤ a.toNat) : s.process (wordOf op a d) = .next (s.withError 0x10#6 .illCmd) := by
  refine (illegalWordOnlyRecordsIllCmd s _).1 ?_
  have hbeyond : opField (wordOf op a d) ∈ [0x21#8, 0x22#8, 0x23#8] ∧
      s.cfg.frameCap ≤ (aField (wordOf op a d)).toNat := by
    rw [opField_wordOf, aField_wordOf]
    exact ⟨hop, ha⟩
  simp only [wordIllegal, hbeyond, and_self, or_true]

/-- Within the buffer a read answers the byte, zero-extended (R77 to R79). -/
theorem State.readByte_of_within (s : State) (m : Memory) (a : Byte) (h : a.toNat < s.cfg.frameCap) :
    s.readByte m a = s.emit (.resp ((m.read a.toNat).setWidth 16)) :=
  if_pos (decide_eq_true h)

/-- Settles O53. -/
theorem rdrxReadsReceiveByte : Obligations.RdrxReadsReceiveByte := by
  intro s a
  refine ⟨fun hin => ⟨decodeEncodeAgree _ (.rdrx a) (decide_eq_true hin), ?_⟩,
    process_of_offset_beyond_cap s 0x22 a 0 (by decide)⟩
  refine ⟨(s.rx.buf.read a.toNat).setWidth 16, BitVec.toNat_setWidth_of_le (by decide), ?_⟩
  exact congrArg _ (s.readByte_of_within s.rx.buf a hin)

end Sys2Proof.Machine
end

section
/-! Whole frames on the wire: an overlong frame skipped byte by byte (R57), a frame collected byte by byte (R54 to R56,
R62, R63), and a valid one from the wire to the output (R58 to R61, R67). The receiver during either run is written as
a function of what is still to come. -/

namespace Sys2Proof.Machine

/-- The receiver with `k` bytes to skip; with none it is idle (R57). -/
def Receiver.skipping (k : Nat) : Receiver :=
  { phase := if k = 0 then .idle else .discard, buf := [], len := 0, rem := BitVec.ofNat 8 k }

/-- A byte is skipped, and one fewer is left to skip (R57). -/
theorem exec_rxb_skipping (s : State) (d : Byte) (k : Nat) (hk : k + 1 < 256) :
    exec (.rxb d) { s with rx := Receiver.skipping (k + 1) } = .next { s with rx := Receiver.skipping k } := by
  have hrem : BitVec.ofNat 8 (k + 1) ≠ 0 := by bv_omega
  have hone : BitVec.ofNat 8 (k + 1) = 1 ↔ k = 0 := by bv_omega
  have hpred : BitVec.ofNat 8 (k + 1) - 1 = BitVec.ofNat 8 k := by bv_omega
  rw [exec_rxb_of_discard _ d rfl, State.rxbDiscard_eq_skip _ rfl hrem]
  simp only [Receiver.skipping, hone, hpred]

/-- Bytes are skipped whatever their values (R57). -/
theorem runAll_skipping (s : State) (bs : List Byte) (k : Nat) (hk : k < 256) (hle : bs.length ≤ k) :
    runAll (bs.map .rxb) { s with rx := Receiver.skipping k } =
      .next { s with rx := Receiver.skipping (k - bs.length) } := by
  induction bs generalizing k with
  | nil => rfl
  | cons b bs ih =>
    obtain ⟨j, rfl⟩ : ∃ j, k = j + 1 := Nat.exists_eq_add_one.2 (Nat.zero_lt_of_lt hle)
    rw [List.length_cons] at hle ⊢
    rw [List.map_cons, runAll_cons_of_next _ _ _ _ (exec_rxb_skipping s b j hk), ih j (by omega) (by omega),
      Nat.add_sub_add_right]

/-- Settles O38: after the length byte the receiver skips (`runAll_skipping`). -/
theorem overlongFrameIsSkippedExactly : Obligations.OverlongFrameIsSkippedExactly := by
  intro s d bs hphase hlong hle
  obtain ⟨hlow, -⟩ := s.cfg.frameCap_bounds
  have hstart : exec (.rxb d) s =
      .next { s.withError 0x04#6 .lenErr with rx := Receiver.skipping (d.toNat - 1) } := by
    have hrem : d - 1 = BitVec.ofNat 8 (d.toNat - 1) := by bv_omega
    rw [exec_rxb_of_len s d hphase, s.rxbLen_of_overlong d hlong, Receiver.skipping, if_neg (by omega), hrem]
  have hdone : d.toNat - 1 - bs.length = 0 ↔ bs.length = d.toNat - 1 := by omega
  rw [runAll_cons_of_next _ _ _ _ hstart, runAll_skipping _ bs _ (by omega) hle]
  simp only [Receiver.skipping, hdone]

/-- The buffer that holds the bytes `f` from offset 0, as writes in their order leave it. -/
def Memory.ofBytes (f : List Byte) : Memory := f.zipIdx.foldl (fun m c => m.write c.2 c.1) []

theorem Memory.ofBytes_concat (f : List Byte) (d : Byte) :
    Memory.ofBytes (f ++ [d]) = (Memory.ofBytes f).write f.length d := by
  simp [Memory.ofBytes, List.zipIdx_append]

theorem Memory.wf_ofBytes (f : List Byte) : (Memory.ofBytes f).wf = true := by
  induction f using List.reverseRecOn with
  | nil => rfl
  | append_singleton f d ih =>
    rw [Memory.ofBytes_concat]
    exact Memory.wf_write _ _ _ ih

theorem Memory.read_ofBytes (f : List Byte) (a : Nat) : (Memory.ofBytes f).read a = f.getD a 0 := by
  induction f using List.reverseRecOn with
  | nil => simp [Memory.ofBytes]
  | append_singleton f d ih =>
    rw [Memory.ofBytes_concat]
    rcases Nat.lt_trichotomy a f.length with hlt | rfl | hgt
    · rw [Memory.read_write_ne _ _ _ _ hlt.ne, ih, List.getD_append _ _ _ _ hlt]
    · rw [Memory.read_write_same _ _ _ (Memory.wf_ofBytes f), List.getD_append_right _ _ _ _ le_rfl]
      simp
    · rw [Memory.read_write_ne _ _ _ _ hgt.ne', ih, List.getD_eq_default _ _ (by omega),
        List.getD_eq_default _ _ (by simp; omega)]

/-- The receiver that has the bytes `f` of a frame and `k` more to collect (R56). -/
def Receiver.collecting (f : List Byte) (k : Nat) : Receiver :=
  { phase := .payload, buf := Memory.ofBytes f, len := BitVec.ofNat 9 f.length, rem := BitVec.ofNat 8 k }

theorem Receiver.collect_collecting (f : List Byte) (k : Nat) (d : Byte) (hf : f.length < 512) :
    (Receiver.collecting f (k + 1)).collect d = Receiver.collecting (f ++ [d]) k := by
  have hlen : (BitVec.ofNat 9 f.length).toNat = f.length := Nat.mod_eq_of_lt hf
  have hrem : BitVec.ofNat 8 (k + 1) - 1 = BitVec.ofNat 8 k := by bv_omega
  have hsucc : BitVec.ofNat 9 f.length + 1 = BitVec.ofNat 9 (f.length + 1) := by bv_omega
  simp only [Receiver.collect, Receiver.collecting, hlen, hrem, hsucc, Memory.ofBytes_concat, List.length_append,
    List.length_singleton]

/-- A byte is collected behind those before it, and the last one completes the frame (R56). -/
theorem exec_rxb_collecting (s : State) (f : List Byte) (d : Byte) (k : Nat)
    (hcap : f.length + k + 1 ≤ s.cfg.frameCap) (hk : k + 1 < 256) :
    exec (.rxb d) { s with rx := Receiver.collecting f (k + 1) } =
      .next (if k = 0 then ({ s with rx := Receiver.collecting (f ++ [d]) 0 } : State).complete
        else { s with rx := Receiver.collecting (f ++ [d]) k }) := by
  obtain ⟨-, hhigh⟩ := s.cfg.frameCap_bounds
  have hlen : (BitVec.ofNat 9 f.length).toNat = f.length := Nat.mod_eq_of_lt (by omega)
  have hrem : BitVec.ofNat 8 (k + 1) ≠ 0 := by bv_omega
  have hone : (Receiver.collecting f (k + 1)).rem = 1 ↔ k = 0 := by
    change BitVec.ofNat 8 (k + 1) = 1 ↔ k = 0
    bv_omega
  rw [exec_rxb_of_payload _ d rfl, State.rxbPayload_eq_collect _ d rfl (hlen.trans_lt (by dsimp only; omega)) hrem]
  simp only [hone, Receiver.collect_collecting f k d (by omega)]
  split
  · next hlast => rw [hlast]
  · rfl

/-- The bytes of a frame are collected whatever their values, and the last one completes it (R56, R62). -/
theorem runAll_collecting (s : State) (f bs : List Byte) (d : Byte)
    (hcap : f.length + bs.length + 1 ≤ s.cfg.frameCap) (hbs : bs.length + 1 < 256) :
    runAll ((d :: bs).map .rxb) { s with rx := Receiver.collecting f (bs.length + 1) } =
      .next ({ s with rx := Receiver.collecting (f ++ d :: bs) 0 } : State).complete := by
  induction bs generalizing f d with
  | nil => exact runAll_cons_of_next _ _ _ _ (exec_rxb_collecting s f d 0 hcap hbs)
  | cons e bs ih =>
    rw [List.length_cons] at hcap hbs ⊢
    have hstep := exec_rxb_collecting s f d (bs.length + 1) hcap hbs
    rw [if_neg (Nat.succ_ne_zero _)] at hstep
    rw [List.map_cons, runAll_cons_of_next _ _ _ _ hstep, ih (f ++ [d]) e (by simp; omega) (by omega),
      List.append_assoc, List.singleton_append]

/-- The start marker and a length byte that fits leave L - 1 bytes to collect (R54, R55). -/
theorem runAll_marker_length (s : State) (d : Byte) (is : List Instr) (hphase : s.rx.phase = .idle)
    (hlow : 2 ≤ d.toNat) (hcap : d.toNat + 1 ≤ s.cfg.frameCap) :
    runAll (.rxb 0xAA#8 :: .rxb d :: is) s =
      runAll is { s with rx := Receiver.collecting [0xAA#8, d] (d.toNat - 1) } := by
  have hrem : BitVec.ofNat 8 (d.toNat - 1) = d - 1 := by bv_omega
  rw [runAll_cons_of_next _ _ _ _ (exec_rxb_of_idle s _ hphase), State.rxbIdle_marker,
    runAll_cons_of_next _ _ _ _ (exec_rxb_of_len _ d rfl), State.rxbLen_of_fits _ d hlow (by exact hcap),
    Receiver.collecting, hrem]
  rfl

/-- Settles O39: the bytes behind the length byte are collected (`runAll_collecting`). -/
theorem frameIsReassembledByteByByte : Obligations.FrameIsReassembledByteByByte := by
  intro s d bs hphase hlow hcap hlen
  refine ⟨_, Memory.wf_ofBytes _, Memory.read_ofBytes _, ?_⟩
  rw [runAll_marker_length s d _ hphase hlow hcap, ← hlen]
  cases bs with
  | nil => exact absurd hlen (by simp; omega)
  | cons b bs =>
    rw [List.length_cons] at hlen
    have hn : d.toNat + 1 = (0xAA#8 :: d :: b :: bs).length := by
      simp only [List.length_cons]
      omega
    rw [hn]
    exact runAll_collecting s [0xAA#8, d] bs b (by simp; omega) (by omega)

/-- A range of a buffer whose bytes are those of a list is the same range of the list. -/
theorem Memory.bytes_of_reads (m : Memory) (f : List Byte) (lo hi : Nat) (hread : ∀ a, m.read a = f.getD a 0)
    (hhi : hi ≤ f.length) : m.bytes lo hi = (f.take hi).drop lo := by
  refine List.ext_getElem (by simp [hhi]) (fun i hi' _ => ?_)
  rw [Memory.bytes_length] at hi'
  have hin : lo + i < f.length := by omega
  simp [Memory.bytes, hread, hin]

/-- Settles O40: the frame is reassembled (O39), and the checks and the FRAME event of O37 read its bytes. -/
theorem validFrameTravelsFromWireToOutput : Obligations.ValidFrameTravelsFromWireToOutput := by
  intro s d bs f acks hphase hlow hcap hlen hcrc hchk
  obtain ⟨b, -, hread, hrun⟩ := frameIsReassembledByteByByte s d bs hphase (by omega) hcap hlen
  have hf : f.length = d.toNat + 1 := by
    simp only [f, List.length_cons]
    omega
  have hn : (BitVec.ofNat 9 (d.toNat + 1)).toNat = d.toNat + 1 := by
    have := d.isLt
    exact Nat.mod_eq_of_lt (by omega)
  have hcrcRange : b.bytes 10 (d.toNat + 1 - 1) = (f.drop 10).dropLast := by
    rw [b.bytes_of_reads f _ _ hread (by omega), List.dropLast_eq_take, List.drop_take, List.length_drop, hf,
      Nat.sub_right_comm]
  have hchkRange : b.bytes 1 (d.toNat + 1) = f.drop 1 := by
    rw [b.bytes_of_reads f _ _ hread hf.ge, ← hf, List.take_length]
  have hall : b.bytes 0 (d.toNat + 1) = f := by
    rw [b.bytes_of_reads f _ _ hread hf.ge, ← hf, List.take_length, List.drop_zero]
  have hhanded := validFrameIsHandedOn
    { s with rx := { phase := .payload, buf := b, len := BitVec.ofNat 9 (d.toNat + 1), rem := 0 } }
  simp only [hn, crc8, byteSum, hcrcRange, hchkRange, hall, hread] at hhanded
  obtain ⟨hdata, hunmatched, hmatched⟩ := hhanded (by omega) hcrc hchk
  refine ⟨_, hrun, complete_rx _, fun htag => ?_, fun htag hno => ?_, fun htag hmatch => ?_⟩
  · rw [complete_rx, hdata htag]
  · rw [complete_rx, hunmatched htag hno]
  · rw [complete_rx, hmatched htag hmatch]

end Sys2Proof.Machine
end

section
/-! The retry queue (42_queue.md): its entries as a run of slots taken round the ring (R17, R18), what ENQ, retiring and
ageing make of that run (R64, R66, R70), and from these the FIFO discipline of every step (R68). -/

namespace Sys2Proof.Machine

/-- The contents of the `n` slots from slot `i` on, indices mod 16. -/
def Queue.slotsFrom (q : Queue) (i : BitVec 4) (n : Nat) : List Slot :=
  (List.range n).map fun k => q.slot (i + BitVec.ofNat 4 k)

theorem Queue.entries_eq_slotsFrom (q : Queue) : q.entries = q.slotsFrom q.head q.count := rfl

theorem Queue.slotsFrom_succ (q : Queue) (i : BitVec 4) (n : Nat) :
    q.slotsFrom i (n + 1) = q.slot i :: q.slotsFrom (i + 1) n := by
  have hshift (k : Nat) : i + BitVec.ofNat 4 (k + 1) = i + 1 + BitVec.ofNat 4 k := by bv_omega
  rw [Queue.slotsFrom, List.range_succ_eq_map, List.map_cons, List.map_map]
  exact congrArg₂ List.cons (by simp) (List.map_congr_left fun k _ => congrArg q.slot (hshift k))

theorem Queue.slotsFrom_concat (q : Queue) (i : BitVec 4) (n : Nat) :
    q.slotsFrom i (n + 1) = q.slotsFrom i n ++ [q.slot (i + BitVec.ofNat 4 n)] := by
  simp [Queue.slotsFrom, List.range_succ]

/-- A run of slots depends on those slots alone. -/
theorem Queue.slotsFrom_congr (q r : Queue) (i : BitVec 4) (n : Nat)
    (h : ∀ k, k < n → r.slot (i + BitVec.ofNat 4 k) = q.slot (i + BitVec.ofNat 4 k)) :
    r.slotsFrom i n = q.slotsFrom i n :=
  List.map_congr_left fun k hk => h k (List.mem_range.1 hk)

theorem Queue.entries_of_empty (q : Queue) (hempty : q.empty = true) : q.entries = [] := by
  rw [q.entries_eq_slotsFrom, q.count_of_empty hempty]
  rfl

/-- A queue that is not empty holds its head entry and, behind it, the slots from head + 1 to the tail. -/
theorem Queue.entries_of_nonempty (q : Queue) (hsome : q.empty = false) :
    q.entries = q.slot q.head :: q.slotsFrom (q.head + 1) (q.tail - q.head).toNat := by
  rw [q.entries_eq_slotsFrom, q.count_of_nonempty hsome, Queue.slotsFrom_succ]

theorem Queue.count_le_sixteen (q : Queue) : q.count ≤ 16 := by
  cases hempty : q.empty with
  | true => simp [q.count_of_empty hempty]
  | false =>
    rw [q.count_of_nonempty hempty]
    have := (q.tail - q.head).isLt
    omega

/-- Going round from the slot behind `i`, slot `i` itself comes only as the sixteenth. -/
theorem slotBehind_ne (i : BitVec 4) (k : Nat) (hk : k < 15) : i + 1 + BitVec.ofNat 4 k ≠ i := by
  bv_omega

/-- What stands behind the head is the same in a queue that differs from `q` in the head slot alone. -/
theorem Queue.slotsFrom_behindHead (q r : Queue) (hother : ∀ i, i ≠ q.head → r.slot i = q.slot i) :
    r.slotsFrom (q.head + 1) (q.tail - q.head).toNat = q.slotsFrom (q.head + 1) (q.tail - q.head).toNat := by
  refine q.slotsFrom_congr r _ _ fun k hk => hother _ (slotBehind_ne q.head k ?_)
  have := (q.tail - q.head).isLt
  omega

/-- Retiring the head leaves what stood behind it, in order (R66). -/
theorem Queue.entries_retireHead (q : Queue) (hsome : q.empty = false) :
    q.retireHead.entries = q.slotsFrom (q.head + 1) (q.tail - q.head).toNat := by
  by_cases honly : q.head = q.tail
  · obtain ⟨-, -, hempty⟩ := q.retireHead_only honly
    rw [Queue.entries_of_empty _ hempty, honly, BitVec.sub_self]
    rfl
  · obtain ⟨hhead, htail, hempty⟩ := q.retireHead_more honly
    have hcount : (q.tail - (q.head + 1)).toNat + 1 = (q.tail - q.head).toNat := by bv_omega
    rw [Queue.entries_eq_slotsFrom, Queue.count_of_nonempty _ (hempty.trans hsome), hhead, htail, hcount]
    refine q.slotsFrom_behindHead _ fun i hi => ?_
    rw [Queue.slot_retireHead, if_neg hi]

/-- Ageing makes the first entry one tick older and leaves the rest (R70). -/
theorem Queue.entries_ageHead (q : Queue) (hsome : q.empty = false) :
    q.ageHead.entries = { q.slot q.head with age := (q.slot q.head).age + 1 } ::
      q.slotsFrom (q.head + 1) (q.tail - q.head).toNat := by
  rw [q.ageHead.entries_of_nonempty hsome, Queue.slot_ageHead, Queue.ageHead_head, Queue.ageHead_tail, if_pos rfl]
  congr 1
  refine q.slotsFrom_behindHead _ fun i hi => ?_
  rw [Queue.slot_ageHead, if_neg hi]

/-- The queue with `e` as its only entry, as ENQ fills an empty queue (R64). -/
def Queue.startWith (q : Queue) (e : Slot) : Queue :=
  { q.setSlot 0 e with head := 0, tail := 0, empty := false }

/-- The queue with `e` in the slot behind the tail, as ENQ fills a queue with room (R64). -/
def Queue.append (q : Queue) (e : Slot) : Queue :=
  { q.setSlot (q.tail + 1) e with tail := q.tail + 1 }

theorem Queue.slot_startWith (q : Queue) (e : Slot) (i : BitVec 4) :
    (q.startWith e).slot i = if i = 0 then e else q.slot i :=
  q.slot_setSlot 0 i e

theorem Queue.slot_append (q : Queue) (e : Slot) (i : BitVec 4) :
    (q.append e).slot i = if i = q.tail + 1 then e else q.slot i :=
  q.slot_setSlot (q.tail + 1) i e

theorem Queue.entries_startWith (q : Queue) (e : Slot) : (q.startWith e).entries = [e] := by
  have hhead : (q.startWith e).slot (q.startWith e).head = e := (q.slot_startWith e 0).trans (if_pos rfl)
  have honly : (q.startWith e).tail - (q.startWith e).head = 0 := BitVec.sub_self 0
  rw [(q.startWith e).entries_of_nonempty rfl, hhead, honly]
  rfl

/-- Writing the slot behind the tail puts the entry behind all others (R64): with room, that slot is none of
theirs. -/
theorem Queue.entries_append (q : Queue) (e : Slot) (hsome : q.empty = false) (hroom : q.tail + 1 ≠ q.head) :
    (q.append e).entries = q.entries ++ [e] := by
  have hcount : (q.append e).count = q.count + 1 := by
    rw [q.count_of_nonempty hsome, (q.append e).count_of_nonempty hsome]
    show (q.tail + 1 - q.head).toNat + 1 = _
    bv_omega
  have hlast : q.head + BitVec.ofNat 4 q.count = q.tail + 1 := by
    rw [q.count_of_nonempty hsome]
    bv_omega
  have hold : (q.append e).slotsFrom q.head q.count = q.slotsFrom q.head q.count := by
    refine q.slotsFrom_congr _ _ _ fun k hk => ?_
    rw [q.count_of_nonempty hsome] at hk
    rw [Queue.slot_append, if_neg (by bv_omega)]
  calc (q.append e).entries
    _ = (q.append e).slotsFrom q.head (q.count + 1) := by rw [Queue.entries_eq_slotsFrom, hcount]; rfl
    _ = q.entries ++ [(q.append e).slot (q.tail + 1)] := by
      rw [Queue.slotsFrom_concat, hold, hlast, q.entries_eq_slotsFrom]
    _ = q.entries ++ [e] := by rw [Queue.slot_append, if_pos rfl]

/-- The frame ENQ takes (R64). -/
theorem Staging.isFrame_iff (g : Staging) : g.isFrame = true ↔ g.len ≠ 0 ∧ g.buf.read 0 = 0xAA#8 := by
  simp [Staging.isFrame]

section
variable (s : State)

theorem execEnq_of_not_frame (hframe : ¬ s.stg.isFrame = true) :
    exec .enq s = .next (s.withError 0x20#6 .stgErr) :=
  if_pos hframe

theorem execEnq_of_empty (hframe : s.stg.isFrame = true) (hempty : s.q.empty = true) :
    exec .enq s = .next { s with q := s.q.startWith s.stg.toSlot } :=
  (if_neg (not_not.2 hframe)).trans (if_pos hempty)

theorem execEnq_of_full (hframe : s.stg.isFrame = true) (hsome : s.q.empty = false)
    (hfull : s.q.tail + 1 = s.q.head) : exec .enq s = .next (s.withError 0x08#6 .qOvf) :=
  (if_neg (not_not.2 hframe)).trans ((if_neg (by simp [hsome])).trans (if_pos hfull))

theorem execEnq_of_room (hframe : s.stg.isFrame = true) (hsome : s.q.empty = false)
    (hroom : s.q.tail + 1 ≠ s.q.head) : exec .enq s = .next { s with q := s.q.append s.stg.toSlot } :=
  (if_neg (not_not.2 hframe)).trans ((if_neg (by simp [hsome])).trans (if_neg hroom))

end

/-- Everything an operation can do to the queue: nothing, RXB and TICK retire or TICK ages its head, ENQ appends. -/
theorem exec_queue_cases (i : Instr) (s t : State) (h : exec i s = .next t) :
    t.q = s.q ∨ (s.q.empty = false ∧ t.q = s.q.retireHead) ∨ (s.q.empty = false ∧ t.q = s.q.ageHead) ∨
    (s.q.empty = true ∧ t.q = s.q.startWith s.stg.toSlot) ∨
    (s.q.empty = false ∧ s.q.tail + 1 ≠ s.q.head ∧ t.q = s.q.append s.stg.toSlot) := by
  cases i with
  | rxb d =>
    obtain ⟨_, _, _, q, rfl, hkept | hretired⟩ := execRxb_frame s t d h
    · exact .inl hkept
    · exact .inr (.inl hretired)
  | tick =>
    obtain ⟨_, q, rfl, hkept | haged | hretired⟩ := execTick_frame s t h
    · exact .inl hkept
    · exact .inr (.inr (.inl haged))
    · exact .inr (.inl hretired)
  | enq =>
    rcases execEnq_frame s t h with ⟨_, rfl⟩ | ⟨-, hempty, rfl⟩ | ⟨-, hsome, hroom, rfl⟩
    · exact .inl rfl
    · exact .inr (.inr (.inr (.inl ⟨hempty, rfl⟩)))
    · exact .inr (.inr (.inr (.inr ⟨hsome, hroom, rfl⟩)))
  | _ =>
    obtain ⟨-, -, -, -, hqueue, -⟩ := eachUnitWritesOnlyItsOwnState _ s t h
    exact .inl (hqueue (by simp) (by simp) (by simp))

/-- The entries of `r` are those of `q` after one operation of a FIFO: as they were, with `e` behind them, with the
first one tick older, or without the first. -/
def Queue.FifoTo (q : Queue) (e : Slot) (r : Queue) : Prop :=
  r.entries = q.entries ∨ r.entries = q.entries ++ [e] ∨
  (∃ x xs, q.entries = x :: xs ∧ r.entries = { x with age := x.age + 1 } :: xs) ∨
  ∃ x xs, q.entries = x :: xs ∧ r.entries = xs

/-- Every operation treats the queue as a FIFO. -/
theorem exec_fifo (i : Instr) (s t : State) (h : exec i s = .next t) : s.q.FifoTo s.stg.toSlot t.q := by
  rcases exec_queue_cases i s t h with hq | ⟨hsome, hq⟩ | ⟨hsome, hq⟩ | ⟨hempty, hq⟩ | ⟨hsome, hroom, hq⟩ <;> rw [hq]
  · exact .inl rfl
  · exact .inr (.inr (.inr ⟨_, _, s.q.entries_of_nonempty hsome, s.q.entries_retireHead hsome⟩))
  · exact .inr (.inr (.inl ⟨_, _, s.q.entries_of_nonempty hsome, s.q.entries_ageHead hsome⟩))
  · refine .inr (.inl ?_)
    rw [s.q.entries_startWith, s.q.entries_of_empty hempty, List.nil_append]
  · exact .inr (.inl (s.q.entries_append _ hsome hroom))

/-- Settles O46, by the five things a step can be (`step_cases`) and the FIFO discipline of every operation
(`exec_fifo`). -/
theorem queueIsFifo : Obligations.QueueIsFifo := by
  intro s t h
  refine ⟨s.q.entries_length.trans_le s.q.count_le_sixteen, ?_⟩
  rcases step_cases s t h with rfl | ⟨now, rest, hin, hreset, rfl⟩ | ⟨rest, rfl⟩ | ⟨rest, rfl⟩ | ⟨i, rest, hexec⟩
  · exact .inl rfl
  · exact .inr (.inr (.inr (.inr ⟨Queue.entries_of_empty _ rfl, now, rest, hin, hreset⟩)))
  · exact .inl rfl
  · exact .inl rfl
  · rcases exec_fifo i { s with inputs := rest } t hexec with hkept | happended | haged | hremoved
    · exact .inl hkept
    · exact .inr (.inl happended)
    · exact .inr (.inr (.inl haged))
    · exact .inr (.inr (.inr (.inl hremoved)))

/-- Settles O41, one equation of ENQ for each case. -/
theorem enqAppendsCopyOfStagingFrame : Obligations.EnqAppendsCopyOfStagingFrame := by
  intro s isFrame copy
  have hiff : isFrame ↔ s.stg.isFrame = true := s.stg.isFrame_iff.symm
  rw [hiff]
  refine ⟨decodeEncodeAgree _ .enq rfl, execEnq_of_not_frame s, fun hframe hempty => ?_,
    execEnq_of_full s, fun hframe hsome hroom => ?_⟩
  · exact ⟨_, execEnq_of_empty s hframe hempty, rfl, rfl, rfl, (s.q.slot_startWith _ 0).trans (if_pos rfl),
      fun k hk => (s.q.slot_startWith _ k).trans (if_neg hk)⟩
  · exact ⟨_, execEnq_of_room s hframe hsome hroom, rfl, rfl, hsome, (s.q.slot_append _ _).trans (if_pos rfl),
      fun k hk => (s.q.slot_append _ k).trans (if_neg hk)⟩

/-- Settles O42: the slots by `Queue.slot_retireHead`, the indices by whether the head was the only entry. -/
theorem retireHeadRemovesTheHead : Obligations.RetireHeadRemovesTheHead := by
  intro q hsome
  have hzero : q.retireHead.slot q.head = Slot.zero := (q.slot_retireHead q.head).trans (if_pos rfl)
  rw [hzero]
  refine ⟨fun k hk => (q.slot_retireHead k).trans (if_neg hk), Memory.read_nil, rfl, rfl, rfl, fun honly => ?_,
    fun hmore => ?_⟩
  · obtain ⟨hhead, htail, hempty⟩ := q.retireHead_only honly
    exact ⟨hempty, hhead, htail⟩
  · obtain ⟨hhead, htail, hempty⟩ := q.retireHead_more hmore
    exact ⟨hempty.trans hsome, hhead, htail⟩

/-- Settles O43. -/
theorem ackMatchRetiresHeadOnEqualToken : Obligations.AckMatchRetiresHeadOnEqualToken :=
  fun s n => ⟨s.ackMatch_of_match n, s.ackMatch_of_no_match n⟩

/-- Settles O45: a queue of fewer than sixteen entries is empty or has room behind its tail. -/
theorem enqAppendsAndRetireDropsFirst : Obligations.EnqAppendsAndRetireDropsFirst := by
  refine ⟨fun s t hlen hmark hcount h => ?_, fun q hsome => ?_⟩
  · have hframe := s.stg.isFrame_iff.2 ⟨hlen, hmark⟩
    cases hempty : s.q.empty with
    | true =>
      rw [execEnq_of_empty s hframe hempty] at h
      cases h
      rw [s.q.entries_of_empty hempty]
      exact s.q.entries_startWith _
    | false =>
      have hroom : s.q.tail + 1 ≠ s.q.head := fun hfull =>
        hcount.ne (s.q.count_eq_sixteen_iff.2 ⟨hempty, hfull⟩)
      rw [execEnq_of_room s hframe hempty hroom] at h
      cases h
      exact s.q.entries_append _ hempty hroom
  · rw [q.entries_retireHead hsome, q.entries_of_nonempty hsome, List.tail_cons]

end Sys2Proof.Machine
end

section
/-! The polling driver (43_poll.md): one equation of TICK for each case of the head's age (R70, R72), and the retry
schedule of one entry (R71) as an induction over its ticks, with the queue written as the first one at another age. -/

namespace Sys2Proof.Machine

/-- The queue with another age in its head slot. -/
def Queue.withHeadAge (q : Queue) (a : Fin 11) : Queue :=
  q.setSlot q.head { q.slot q.head with age := a }

theorem Queue.slot_withHeadAge (q : Queue) (a : Fin 11) (i : BitVec 4) :
    (q.withHeadAge a).slot i = if i = q.head then { q.slot q.head with age := a } else q.slot i :=
  q.slot_setSlot _ _ _

@[simp] theorem Queue.head_withHeadAge (q : Queue) (a : Fin 11) : (q.withHeadAge a).head = q.head := rfl

@[simp] theorem Queue.empty_withHeadAge (q : Queue) (a : Fin 11) : (q.withHeadAge a).empty = q.empty := rfl

@[simp] theorem Queue.headSlot_withHeadAge (q : Queue) (a : Fin 11) :
    (q.withHeadAge a).slot q.head = { q.slot q.head with age := a } :=
  (q.slot_withHeadAge a q.head).trans (if_pos rfl)

theorem Queue.ageHead_eq_withHeadAge (q : Queue) : q.ageHead = q.withHeadAge ((q.slot q.head).age + 1) := rfl

theorem Queue.setSlot_slot (q : Queue) (i : BitVec 4) : q.setSlot i (q.slot i) = q := by
  simp [Queue.setSlot, Queue.slot]

theorem Queue.withHeadAge_self (q : Queue) : q.withHeadAge (q.slot q.head).age = q := q.setSlot_slot q.head

theorem Queue.ageHead_withHeadAge (q : Queue) (a : Fin 11) : (q.withHeadAge a).ageHead = q.withHeadAge (a + 1) := by
  simp [Queue.ageHead_eq_withHeadAge, Queue.withHeadAge]

/-- Retiring zeroes the head slot, so the age it had does not matter (R66). -/
theorem Queue.retireHead_withHeadAge (q : Queue) (a : Fin 11) : (q.withHeadAge a).retireHead = q.retireHead := by
  simp [Queue.retireHead, Queue.withHeadAge]

/-- `r` is `q` but for the age of its head, which is `n` (R70). -/
def Queue.IsWithHeadAge (q : Queue) (n : Nat) (r : Queue) : Prop :=
  r.head = q.head ∧ r.tail = q.tail ∧ r.empty = q.empty ∧ (r.slot q.head).buf = (q.slot q.head).buf ∧
    (r.slot q.head).len = (q.slot q.head).len ∧ (r.slot q.head).tag = (q.slot q.head).tag ∧
    (r.slot q.head).age.val = n ∧ ∀ k, k ≠ q.head → r.slot k = q.slot k

theorem Queue.isWithHeadAge_withHeadAge (q : Queue) (a : Fin 11) : q.IsWithHeadAge a.val (q.withHeadAge a) := by
  refine ⟨rfl, rfl, rfl, ?_, ?_, ?_, ?_, fun k hk => (q.slot_withHeadAge a k).trans (if_neg hk)⟩ <;>
    rw [Queue.headSlot_withHeadAge]

theorem Queue.isWithHeadAge_ageHead (q : Queue) (hage : (q.slot q.head).age ≠ 10) :
    q.IsWithHeadAge ((q.slot q.head).age.val + 1) q.ageHead := by
  have hnext : ((q.slot q.head).age + 1).val = (q.slot q.head).age.val + 1 :=
    Fin.val_add_one_of_lt (Fin.lt_last_iff_ne_last.2 hage)
  rw [← hnext]
  exact q.isWithHeadAge_withHeadAge _

theorem mem_txAges (a : Fin 11) : a ∈ txAges ↔ a = 0 ∨ a = 4 ∨ a = 7 := by simp [txAges]

/-- What a tick at a transmitting age emits for the head entry (R70). -/
def Queue.headTx (q : Queue) : Event :=
  .tx q.head (q.slot q.head).len.toNat ((q.slot q.head).buf.bytes 0 (q.slot q.head).len.toNat)

theorem Queue.headTx_withHeadAge (q : Queue) (a : Fin 11) : (q.withHeadAge a).headTx = q.headTx := by
  simp [Queue.headTx]

section
variable (s : State)

/-- TICK on an empty queue (R72). -/
theorem exec_tick_of_empty (hempty : s.q.empty = true) : exec .tick s = .next (s.emit .getReq) := by
  show execTick s = _
  rw [execTick, (s.q.peekHead_eq_none).2 hempty]

/-- TICK at an age of `TX_AGES`. -/
theorem exec_tick_of_txAge (hsome : s.q.empty = false) (hlen : (s.q.slot s.q.head).len.toNat ≤ s.cfg.frameCap)
    (hage : (s.q.slot s.q.head).age ∈ txAges) :
    exec .tick s = .next { s with q := s.q.ageHead, out := s.out ++ [s.q.headTx] } := by
  show execTick s = _
  rw [execTick, (s.q.peekHead_eq_some _).2 ⟨hsome, rfl⟩]
  dsimp only
  rw [if_pos hage, if_neg hlen.not_gt]
  rfl

/-- TICK at `DROP_AGE`. -/
theorem exec_tick_of_dropAge (hsome : s.q.empty = false) (hage : (s.q.slot s.q.head).age = 10) :
    exec .tick s = .next { s with q := s.q.retireHead, out := s.out ++ [.drop s.q.head] } := by
  have hnotTx : (s.q.slot s.q.head).age ∉ txAges := by rw [hage]; decide
  show execTick s = _
  rw [execTick, (s.q.peekHead_eq_some _).2 ⟨hsome, rfl⟩]
  dsimp only
  rw [if_neg hnotTx, if_pos hage]
  rfl

/-- TICK at an age that neither transmits nor drops. -/
theorem exec_tick_of_waitAge (hsome : s.q.empty = false) (hnotTx : (s.q.slot s.q.head).age ∉ txAges)
    (hnotDrop : (s.q.slot s.q.head).age ≠ 10) : exec .tick s = .next { s with q := s.q.ageHead } := by
  show execTick s = _
  rw [execTick, (s.q.peekHead_eq_some _).2 ⟨hsome, rfl⟩]
  dsimp only
  rw [if_neg hnotTx, if_neg hnotDrop]

end

/-- Settles O47. -/
theorem tickOnEmptyQueueRequestsGet : Obligations.TickOnEmptyQueueRequestsGet := exec_tick_of_empty

/-- Settles O48, one equation of TICK for each case. -/
theorem tickActsByHeadAge : Obligations.TickActsByHeadAge := by
  intro s e n older
  refine ⟨decodeEncodeAgree _ .tick rfl, exec_tick_of_empty s, fun hsome hlen hage => ?_,
    exec_tick_of_dropAge s, fun hsome h0 h4 h7 h10 => ?_⟩
  · have hnotDrop : e.age ≠ 10 := by rcases hage with h | h | h <;> rw [h] <;> decide
    exact ⟨_, exec_tick_of_txAge s hsome hlen ((mem_txAges _).2 hage), s.q.isWithHeadAge_ageHead hnotDrop⟩
  · have hnotTx : e.age ∉ txAges := by simp only [mem_txAges, h0, h4, h7, or_self, not_false_eq_true]
    exact ⟨_, exec_tick_of_waitAge s hsome hnotTx h10, s.q.isWithHeadAge_ageHead h10⟩

/-- How many of the ticks 0 to `k - 1` of an entry at the head transmit it (R71). -/
def transmissionsBefore (k : Nat) : Nat := txAges.countP fun a => decide (a.val < k)

theorem transmissionsBefore_eq (k : Nat) :
    transmissionsBefore k = if k = 0 then 0 else if k ≤ 4 then 1 else if k ≤ 7 then 2 else 3 := by
  have hsplit : transmissionsBefore k =
      (if 7 < k then 1 else 0) + (if 4 < k then 1 else 0) + (if 0 < k then 1 else 0) := by
    simp [transmissionsBefore, txAges, List.countP_cons]
  rw [hsplit]
  split_ifs <;> omega

theorem transmissionsBefore_succ : ∀ a : Fin 11,
    transmissionsBefore (a.val + 1) = transmissionsBefore a.val + if a ∈ txAges then 1 else 0 := by decide

/-- The state after the ticks 0 to `a - 1` of the entry at the head of `s` (R71). -/
def State.headTicked (s : State) (a : Fin 11) : State :=
  { s with q := s.q.withHeadAge a, out := s.out ++ List.replicate (transmissionsBefore a.val) s.q.headTx }

section
variable (s : State) (hsome : s.q.empty = false)
include hsome

/-- One tick further in the schedule, before the last. -/
theorem exec_tick_headTicked (hlen : (s.q.slot s.q.head).len.toNat ≤ s.cfg.frameCap) (a : Fin 11) (ha : a ≠ 10) :
    exec .tick (s.headTicked a) = .next (s.headTicked (a + 1)) := by
  have hage : ((s.headTicked a).q.slot (s.headTicked a).q.head).age = a := by simp [State.headTicked]
  have hcount : transmissionsBefore (a + 1).val = transmissionsBefore a.val + if a ∈ txAges then 1 else 0 := by
    rw [Fin.val_add_one_of_lt (Fin.lt_last_iff_ne_last.2 ha), transmissionsBefore_succ]
  by_cases htx : a ∈ txAges
  · rw [exec_tick_of_txAge (s.headTicked a) hsome (by simpa [State.headTicked] using hlen) (hage.symm ▸ htx)]
    simp only [State.headTicked, Queue.ageHead_withHeadAge, Queue.headTx_withHeadAge, hcount, if_pos htx,
      List.replicate_succ', List.append_assoc]
  · rw [exec_tick_of_waitAge (s.headTicked a) hsome (hage.symm ▸ htx) (hage.symm ▸ ha)]
    simp only [State.headTicked, Queue.ageHead_withHeadAge, hcount, if_neg htx, Nat.add_zero]

/-- The first ten ticks of an entry at the head (R71). -/
theorem runAll_ticks (hlen : (s.q.slot s.q.head).len.toNat ≤ s.cfg.frameCap) (hage : (s.q.slot s.q.head).age = 0)
    (k : Nat) (hk : k < 11) : runAll (List.replicate k .tick) s = .next (s.headTicked ⟨k, hk⟩) := by
  induction k with
  | zero =>
    have hstart : s.headTicked 0 = s := by
      rw [State.headTicked, ← hage, s.q.withHeadAge_self, hage]
      simp [transmissionsBefore_eq]
    exact congrArg _ hstart.symm
  | succ k ih =>
    have hlt : k < 11 := by omega
    have hne : (⟨k, hlt⟩ : Fin 11) ≠ 10 := Fin.ne_of_val_ne (by simp; omega)
    have hnext : (⟨k, hlt⟩ : Fin 11) + 1 = ⟨k + 1, hk⟩ :=
      Fin.ext (Fin.val_add_one_of_lt (Fin.lt_last_iff_ne_last.2 hne))
    rw [List.replicate_succ', runAll_append _ _ _ _ (ih hlt),
      runAll_cons_of_next _ _ _ _ (exec_tick_headTicked s hsome hlen _ hne), hnext, runAll]

end

/-- Settles O49: ten ticks of the schedule (`runAll_ticks`), then the tick that drops. -/
theorem retryScheduleOfTheHead : Obligations.RetryScheduleOfTheHead := by
  intro s e tx sent hsome hage hlen
  have hsent (k : Nat) : List.replicate (transmissionsBefore k) s.q.headTx = sent k := by
    rw [transmissionsBefore_eq]
    simp only [sent]
    split_ifs <;> rfl
  refine ⟨fun k hk => ⟨s.q.withHeadAge ⟨k, by omega⟩, ?_, s.q.isWithHeadAge_withHeadAge _⟩, ?_⟩
  · rw [runAll_ticks s hsome hlen hage k (by omega), State.headTicked, hsent]
  · have hten : runAll (List.replicate 10 .tick) s = .next (s.headTicked 10) :=
      runAll_ticks s hsome hlen hage 10 (by decide)
    have hdrop := exec_tick_of_dropAge (s.headTicked 10) hsome (by simp [State.headTicked])
    rw [List.replicate_succ' (n := 10), runAll_append _ _ _ _ hten, runAll_cons_of_next _ _ _ _ hdrop, runAll]
    simp only [State.headTicked, hsent, Queue.retireHead_withHeadAge, Queue.head_withHeadAge, List.append_assoc]
    rfl

end Sys2Proof.Machine
end

section
/-! The access operations (44_access.md): NOP, the register map's values (R76), a buffer byte read out (R77, R79) and
CLRST, each with the words of its opcode that R37 makes illegal. -/

namespace Sys2Proof.Machine

theorem eq_nop_of_opcode (i : Instr) (h : i.opcode = 0) : i = .nop := by
  cases i with
  | nop => rfl
  | _ => cases h

/-- NOP has one word: with its opcode, a word the decoder accepts is the word 0 (R74). -/
theorem word_eq_zero_of_decode (cap : Nat) (w : EventWord) (i : Instr) (hop : opField w = 0)
    (hdec : decode cap w = .ok i) : w = 0x00000000#32 := by
  obtain ⟨rfl, -⟩ := decodedWordReencodes cap w i hdec
  obtain ⟨hopcode, -⟩ := Laws.EncodedFields.all i
  rw [eq_nop_of_opcode i (hopcode.symm.trans hop)]
  rfl

/-- Settles O50. -/
theorem nopChangesNothing : Obligations.NopChangesNothing := by
  intro s
  refine ⟨decodeEncodeAgree _ .nop rfl, rfl, fun w hop hne => (illegalWordOnlyRecordsIllCmd s w).1 ?_⟩
  by_contra hlegal
  obtain ⟨i, hdec⟩ := (not_wordIllegal_iff _ w).1 hlegal
  exact hne (word_eq_zero_of_decode _ w i hop hdec)

/-- A byte too large for its lower `lo` bits has one of the `n` bits above them set. -/
theorem highBits_ne_zero (d : Byte) (lo n : Nat) (hn : lo + n = 8) (h : 2 ^ lo ≤ d.toNat) :
    d.extractLsb' lo n ≠ 0 := by
  intro hzero
  have hquot : d.toNat / 2 ^ lo < 2 ^ n := Nat.div_lt_of_lt_mul (by rw [← pow_add, hn]; exact d.isLt)
  have hnat : (d.extractLsb' lo n).toNat = 0 := by rw [hzero]; rfl
  rw [BitVec.extractLsb'_toNat, Nat.shiftRight_eq_div_pow, Nat.mod_eq_of_lt hquot] at hnat
  exact absurd (Nat.div_pos h (Nat.two_pow_pos lo)) (by omega)

/-! ## CLRST (R80) -/

theorem getLsbD_statusClear (st m : BitVec 6) (k : Nat) :
    (statusClear st m).getLsbD k = (st.getLsbD k && !m.getLsbD k) := by
  rw [statusClear, BitVec.getLsbD_and, BitVec.getLsbD_not]
  by_cases hk : k < 6
  · rw [decide_eq_true hk, Bool.true_and]
  · rw [BitVec.getLsbD_of_ge st k (Nat.not_lt.1 hk), Bool.false_and, Bool.false_and]

/-- A CLRST word whose D is no six-bit mask is illegal (R37 case 6, R80). -/
theorem wordIllegal_of_wide_mask (cap : Nat) (d : Byte) (h : 64 ≤ d.toNat) : wordIllegal cap (wordOf 0x30 0 d) := by
  refine .inr (.inr (.inr (.inr (.inr (.inl ?_)))))
  rw [opField_wordOf, dField_wordOf]
  exact ⟨rfl, highBits_ne_zero d 6 2 rfl h⟩

/-- Settles O55. -/
theorem clrstClearsMaskedBits : Obligations.ClrstClearsMaskedBits := by
  intro s
  refine ⟨fun m => ⟨decodeEncodeAgree _ (.clrst m) rfl, _, rfl, getLsbD_statusClear s.status m⟩,
    fun d hwide => ?_⟩
  exact (illegalWordOnlyRecordsIllCmd s _).1 (wordIllegal_of_wide_mask _ d hwide)

/-! ## The buffer reads (R77, R79) -/

section
variable (s : State) (m : Memory) (a : Byte) (hin : a.toNat < s.cfg.frameCap)
include hin

/-- Within the buffer the RESP value is the byte's number, and only the output list changes (R77 to R79). -/
theorem State.readByte_answers :
    ∃ v, v.toNat = (m.read a.toNat).toNat ∧ s.readByte m a = { s with out := s.out ++ [.resp v] } :=
  ⟨_, BitVec.toNat_setWidth_of_le (by decide), s.readByte_of_within m a hin⟩

theorem State.readByte_of_zero (hzero : m.read a.toNat = 0) :
    s.readByte m a = { s with out := s.out ++ [.resp 0] } := by
  rw [s.readByte_of_within m a hin, hzero]
  rfl

end

/-- Settles O52; behind `stg.len` the staging invariant leaves zero bytes alone (R15). -/
theorem rdstgReadsStagingByte : Obligations.RdstgReadsStagingByte := by
  intro s a
  refine ⟨fun hin => ⟨decodeEncodeAgree _ (.rdstg a) (decide_eq_true hin), ?_⟩, ?_,
    process_of_offset_beyond_cap s 0x21 a 0 (by decide)⟩
  · obtain ⟨v, hv, hread⟩ := s.readByte_answers s.stg.buf a hin
    exact ⟨v, hv, congrArg _ hread⟩
  · rintro ⟨-, -, hzero⟩ hbehind hin
    exact congrArg _ (s.readByte_of_zero _ a hin (hzero _ hbehind))

/-- An RDSLOT word whose D is no slot number is illegal (R37 case 5, R79). -/
theorem wordIllegal_of_wide_slot (cap : Nat) (a d : Byte) (h : 16 ≤ d.toNat) :
    wordIllegal cap (wordOf 0x23 a d) := by
  refine .inr (.inr (.inr (.inr (.inl ?_))))
  rw [opField_wordOf, dField_wordOf]
  exact ⟨rfl, highBits_ne_zero d 4 4 rfl h⟩

/-- Settles O54; an unoccupied slot is the zero slot, by the queue's invariants (R17). -/
theorem rdslotReadsSlotByte : Obligations.RdslotReadsSlotByte := by
  intro s a
  refine ⟨fun k hin => ⟨decodeEncodeAgree _ (.rdslot a k) (decide_eq_true hin), ?_⟩, ?_, ?_⟩
  · obtain ⟨v, hv, hread⟩ := s.readByte_answers (s.q.slot k).buf a hin
    exact ⟨v, hv, congrArg _ hread⟩
  · rintro k ⟨-, hslots⟩ hfree hin
    have hzero : s.q.slot k = Slot.zero := (hslots k).2 hfree
    refine congrArg _ (s.readByte_of_zero _ a hin ?_)
    rw [hzero, Slot.zero_buf, Memory.read_nil]
  · rintro d (hwide | hbeyond)
    · exact (illegalWordOnlyRecordsIllCmd s _).1 (wordIllegal_of_wide_slot _ a d hwide)
    · exact process_of_offset_beyond_cap s 0x23 a d (by decide) hbeyond

/-! ## RDREG and the register map (R75, R76) -/

/-- The number a register holds, as the table of R76 gives it. -/
def State.regNumber (s : State) : Reg → Nat
  | .status => s.status.toNat
  | .verify => s.verify.toNat
  | .rxState => match s.rx.phase with | .idle => 0 | .len => 1 | .payload => 2 | .discard => 3
  | .rxLen => s.rx.len.toNat
  | .rxRem => s.rx.rem.toNat
  | .stgLen => s.stg.len.toNat
  | .stgTag => s.stg.tag.toNat
  | .qCtrl => (if s.q.empty then 0x8000 else 0) + s.q.tail.toNat * 16 + s.q.head.toNat
  | .qCount => s.q.count
  | .cap => s.cfg.frameCap
  | .qDepth => 16
  | .slotLen k => (s.q.slot k).len.toNat
  | .slotAge k => (s.q.slot k).age.val
  | .slotTag k => (s.q.slot k).tag.toNat

theorem append_toNat_eq_add {n k : Nat} (x : BitVec n) (y : BitVec k) :
    (x ++ y).toNat = x.toNat * 2 ^ k + y.toNat := by
  rw [BitVec.toNat_append, ← Nat.shiftLeft_add_eq_or_of_lt y.isLt, Nat.shiftLeft_eq]

/-- `QCTRL` has the empty flag in bit 15, the tail in bits 7 to 4 and the head in bits 3 to 0 (R76). -/
theorem Queue.ctrlWord_toNat (q : Queue) :
    q.ctrlWord.toNat = (if q.empty then 0x8000 else 0) + q.tail.toNat * 16 + q.head.toNat := by
  simp only [Queue.ctrlWord, append_toNat_eq_add]
  cases q.empty <;> simp [Nat.add_mul]

/-- The 16-bit value of a register is its number: nothing is lost by the width (R76). -/
theorem State.readReg_toNat (s : State) (r : Reg) : (s.readReg r).toNat = s.regNumber r := by
  cases r with
  | status | verify | rxLen | rxRem | stgLen | stgTag | slotLen | slotTag =>
    exact BitVec.toNat_setWidth_of_le (by decide)
  | rxState => simp only [State.readReg, State.regNumber]; cases s.rx.phase <;> rfl
  | qCtrl => exact s.q.ctrlWord_toNat
  | qCount => exact Nat.mod_eq_of_lt (s.q.count_le_sixteen.trans_lt (by decide))
  | cap => exact Nat.mod_eq_of_lt (s.cfg.frameCap_bounds.2.trans_lt (by decide))
  | qDepth => rfl
  | slotAge k => exact Nat.mod_eq_of_lt ((s.q.slot k).age.isLt.trans (by decide))

/-- What R75 asks of the address of a register that holds `n`: its word is RDREG of it, and the only effect is RESP. -/
def State.RdregAnswers (s : State) (a : Byte) (n : Nat) : Prop :=
  ∃ r v, decode s.cfg.frameCap (wordOf 0x20 a 0) = .ok (.rdreg r) ∧ v.toNat = n ∧
    exec (.rdreg r) s = .next { s with out := s.out ++ [.resp v] }

theorem State.rdregAnswers_regAddr (s : State) (r : Reg) : s.RdregAnswers (regAddr r) (s.regNumber r) :=
  ⟨r, s.readReg r, decodeEncodeAgree _ (.rdreg r) rfl, s.readReg_toNat r, rfl⟩

/-- The register of a slot stands at its page's address plus the slot number (R76). -/
theorem slotRegAddr (page k : BitVec 4) : page ++ k = BitVec.ofNat 8 (page.toNat * 16 + k.toNat) := by
  refine BitVec.eq_of_toNat_eq ?_
  rw [append_toNat_eq_add, BitVec.toNat_ofNat]
  omega

/-- An RDREG word whose address is not in the map is illegal (R37 case 7, R75). -/
theorem wordIllegal_of_not_inRegisterMap (cap : Nat) (a : Byte) (h : ¬ inRegisterMap a) :
    wordIllegal cap (wordOf 0x20 a 0) := by
  refine .inr (.inr (.inr (.inr (.inr (.inr (.inl ?_))))))
  rw [opField_wordOf, aField_wordOf]
  exact ⟨rfl, h⟩

/-- Settles O51: row by row of R76, each address being that of the register with the value beside it. -/
theorem rdregReadsTheRegisterMap : Obligations.RdregReadsTheRegisterMap := by
  intro s
  have row := s.rdregAnswers_regAddr
  refine ⟨?_, fun k => ?_, fun a hout => (illegalWordOnlyRecordsIllCmd s _).1 ?_⟩
  · simp only [List.forall_mem_cons]
    exact ⟨row .status, row .verify, row .rxState, row .rxLen, row .rxRem, row .stgLen, row .stgTag, row .qCtrl,
      row .qCount, row .cap, row .qDepth, List.forall_mem_nil _⟩
  · simp only [List.forall_mem_cons]
    exact ⟨slotRegAddr 1 k ▸ row (.slotLen k), slotRegAddr 2 k ▸ row (.slotAge k),
      slotRegAddr 3 k ▸ row (.slotTag k), List.forall_mem_nil _⟩
  · refine wordIllegal_of_not_inRegisterMap _ a ?_
    unfold inRegisterMap
    omega

end Sys2Proof.Machine
end

section
/-! The block never traps and never halts (60_exceptions.md): the step by what the next instant offers (R89, R90), and
no operation stops under the invariants of R14, R15 and R17 (R81). -/

namespace Sys2Proof.Machine

section
variable (s : State)

theorem step_of_no_input (hin : s.inputs = []) : step s = .next s := by
  simp [step, hin]

/-- The reset input is served before any event of its instant (R90). -/
theorem step_of_reset (now : Instant) (rest : List Instant) (hin : s.inputs = now :: rest)
    (hreset : now.reset = true) : step s = .next (State.resetWith s.cfg rest s.out) := by
  simp [step, hin, hreset]

/-- An instant that offers no event is passed (R89). -/
theorem step_of_no_event (now : Instant) (rest : List Instant) (hin : s.inputs = now :: rest)
    (hreset : now.reset = false) (htake : now.take = none) : step s = .next { s with inputs := rest } := by
  simp [step, hin, hreset, htake]

end

/-- Settles O7. -/
theorem noEventKeepsState : Obligations.NoEventKeepsState :=
  fun s => ⟨step_of_no_input s, fun rest hin => step_of_no_event s _ rest hin rfl rfl⟩

/-! ## No operation stops: both faults are ruled out by the invariant of the unit the operation reads -/

section
variable (s : State)

/-- In PAYLOAD a byte is outstanding, so the frame still has room in the buffer (R14). -/
theorem Receiver.room_of_payload (cap : Nat) (r : Receiver) (hinv : r.Inv cap) (hphase : r.phase = .payload) :
    r.rem ≠ 0 ∧ r.len.toNat < cap := by
  obtain ⟨-, -, hrem, hsum, -⟩ := (Receiver.inv_iff_of_payload _ _ hphase).1 hinv
  exact ⟨by bv_omega, by omega⟩

/-- In DISCARD a byte is left to skip (R14). -/
theorem Receiver.rem_ne_zero_of_discard (cap : Nat) (r : Receiver) (hinv : r.Inv cap)
    (hphase : r.phase = .discard) : r.rem ≠ 0 := by
  obtain ⟨-, -, -, hrem, -⟩ := (Receiver.inv_iff_of_discard _ _ hphase).1 hinv
  bv_omega

/-- RXB answers in each phase of the receiver; only PAYLOAD and DISCARD need R14. -/
theorem exec_rxb_answers (d : Byte) (hinv : s.rx.Inv s.cfg.frameCap) : ∃ t, exec (.rxb d) s = .next t := by
  cases hphase : s.rx.phase with
  | idle => exact ⟨_, exec_rxb_of_idle s d hphase⟩
  | len => exact ⟨_, exec_rxb_of_len s d hphase⟩
  | payload =>
    obtain ⟨hrem, hlen⟩ := s.rx.room_of_payload _ hinv hphase
    exact ⟨_, (exec_rxb_of_payload s d hphase).trans (s.rxbPayload_eq_collect d hphase hlen hrem)⟩
  | discard =>
    have hrem := s.rx.rem_ne_zero_of_discard _ hinv hphase
    exact ⟨_, (exec_rxb_of_discard s d hphase).trans (s.rxbDiscard_eq_skip hphase hrem)⟩

/-- The head of a queue that is not empty holds a frame of at most `FRAME_CAP` bytes (R17). -/
theorem Queue.headLen_le (cap : Nat) (q : Queue) (hinv : q.Inv cap) (hsome : q.empty = false) :
    (q.slot q.head).len.toNat ≤ cap := by
  obtain ⟨-, hslots⟩ := hinv
  obtain ⟨⟨-, -, hlen, -⟩, -⟩ := (hslots q.head).1 (q.occupied_head hsome)
  exact hlen

/-- TICK answers in each of its cases; only a transmission needs R17. -/
theorem exec_tick_answers (hinv : s.q.Inv s.cfg.frameCap) : ∃ t, exec .tick s = .next t := by
  cases hempty : s.q.empty with
  | true => exact ⟨_, exec_tick_of_empty s hempty⟩
  | false =>
    by_cases htx : (s.q.slot s.q.head).age ∈ txAges
    · exact ⟨_, exec_tick_of_txAge s hempty (s.q.headLen_le _ hinv hempty) htx⟩
    by_cases hdrop : (s.q.slot s.q.head).age = 10
    · exact ⟨_, exec_tick_of_dropAge s hempty hdrop⟩
    · exact ⟨_, exec_tick_of_waitAge s hempty htx hdrop⟩

/-- An append faults only where the length is already beyond `FRAME_CAP`, against R15. -/
theorem stgAppend_answers (d : Byte) (hinv : s.stg.Inv s.cfg.frameCap) : ∃ t, s.stgAppend d = .next t := by
  obtain ⟨-, hlen, -⟩ := hinv
  rcases hlen.eq_or_lt with hfull | hroom
  · exact ⟨_, stgAppend_of_full s d hfull⟩
  · exact ⟨_, stgAppend_of_room s d hroom⟩

/-- SWR writes below the length, which R15 keeps within `FRAME_CAP`. -/
theorem exec_swr_answers (a d : Byte) (hinv : s.stg.Inv s.cfg.frameCap) : ∃ t, exec (.swr a d) s = .next t := by
  obtain ⟨hwf, hlen, -⟩ := hinv
  obtain ⟨-, hbeyond, hbelow⟩ := swrOverwritesByte s a d hwf hlen
  rcases le_or_gt s.stg.len.toNat a.toNat with ha | ha
  · exact ⟨_, hbeyond ha⟩
  · obtain ⟨_, hexec, -⟩ := hbelow ha
    exact ⟨_, hexec⟩

/-- ENQ answers at every state: a frame it does not take, and a full queue, are recorded errors (R64). -/
theorem exec_enq_answers : ∃ t, exec .enq s = .next t := by
  by_cases hframe : s.stg.isFrame = true
  case neg => exact ⟨_, execEnq_of_not_frame s hframe⟩
  cases hempty : s.q.empty with
  | true => exact ⟨_, execEnq_of_empty s hframe hempty⟩
  | false =>
    by_cases hfull : s.q.tail + 1 = s.q.head
    · exact ⟨_, execEnq_of_full s hframe hempty hfull⟩
    · exact ⟨_, execEnq_of_room s hframe hempty hfull⟩

/-- No operation faults or is refused under the invariant, each by the unit whose lengths it uses (R81). -/
theorem exec_answers (i : Instr) (hinv : s.Inv) : ∃ t, exec i s = .next t := by
  obtain ⟨hrx, hstg, hq⟩ := hinv
  cases i with
  | rxb d => exact exec_rxb_answers s d hrx
  | tick => exact exec_tick_answers s hq
  | spush d => exact stgAppend_answers s d hstg
  | scrc => exact stgAppend_answers s _ hstg
  | schk => exact stgAppend_answers s _ hstg
  | swr a d => exact exec_swr_answers s a d hstg
  | sver =>
    obtain ⟨-, hlen, -⟩ := hstg
    obtain ⟨_, hexec, -⟩ := execSver_of_legal s hlen
    exact ⟨_, hexec⟩
  | enq => exact exec_enq_answers s
  | nop | sclr | stag | rdreg | rdstg | rdrx | rdslot | clrst => exact ⟨_, rfl⟩

/-- An event word is an operation, or illegal and then only recorded (R37). -/
theorem process_answers (w : EventWord) (hinv : s.Inv) : ∃ t, s.process w = .next t := by
  rcases process_cases s w with ⟨i, -, hexec⟩ | ⟨-, -, hillegal⟩
  · rw [hexec]
    exact exec_answers s i hinv
  · exact ⟨_, hillegal⟩

end

/-- Settles O12, by what the next instant offers: nothing, the reset input, no event, or an event word. Taking the
word leaves the three units, and so the invariant, as they were. -/
theorem stepNeverStops : Obligations.StepNeverStops := by
  intro s hinv
  cases hin : s.inputs with
  | nil => exact ⟨_, step_of_no_input s hin⟩
  | cons now rest =>
    cases hreset : now.reset with
    | true => exact ⟨_, step_of_reset s now rest hin hreset⟩
    | false =>
      cases htake : now.take with
      | none => exact ⟨_, step_of_no_event s now rest hin hreset htake⟩
      | some taken =>
        obtain ⟨w, left⟩ := taken
        rw [step_of_take s now left rest w hin hreset htake]
        exact process_answers { s with inputs := left.before rest } w hinv

end Sys2Proof.Machine
end

section
/-! Reset (70_reset_and_hazards.md): what the reset input does to a running block (R90). -/

namespace Sys2Proof.Machine

/-- Reset differs from one choice of parameters, inputs and output list to another in these three alone: no element
of R22's table depends on them. -/
theorem State.resetWith_eq_reset_with (c : Config) (ins : List Instant) (evs : List Event) :
    State.resetWith c ins evs = { State.reset with cfg := c, inputs := ins, out := evs } := rfl

/-- Settles O9: the reset input is served first (`step_of_reset`), whatever the state and whatever else the instant
offers. -/
theorem resetInputRestoresResetValues : Obligations.ResetInputRestoresResetValues := by
  intro s now rest hin hreset
  calc step s = .next (State.resetWith s.cfg rest s.out) := step_of_reset s now rest hin hreset
    _ = .next { State.reset with cfg := s.cfg, inputs := rest, out := s.out } :=
      congrArg _ (State.resetWith_eq_reset_with s.cfg rest s.out)

end Sys2Proof.Machine
end
